-- ==== Sys2Proof/Word.lean ====
section
/-! DEFINITION. The word types of the engine (00_scope.md R3, R6; 10_state.md R10, R19). -/

namespace Sys2Proof

/-- A register or pc value: XLEN = 32 bits, bit 31 the most significant (R3, R6). -/
abbrev Word := BitVec 32

/-- One byte of the memory image, 8 bits (R19). -/
abbrev Byte := BitVec 8

/-- A register number, the 5-bit field of an instruction word (R10, R52). -/
abbrev RegNum := BitVec 5

/-- A physical address, 29 bits (R31). -/
abbrev PhysAddr := BitVec 29

end Sys2Proof
end

