-- ==== Sys2Proof/Config.lean ====
section
/-! DEFINITION. The engine's fixed parameters, rule R3 of 00_scope.md (the literals are unaudited: D22, log 21).
The parameters of rule R4 that the spec decides itself stand in Machine/Parameters.lean. -/

namespace Sys2Proof.Config

/-- MEM_SIZE: 8 MiB, the number of bytes of the memory image (R3, R30). -/
def memSize : Nat := 0x00800000

/-- PHYS_MASK: keeps the low 29 bits of a virtual address (R3, R31). -/
def physMask : Word := 0x1FFFFFFF#32

/-- RESET_VECTOR: the pc after power-on, after Reset and after an out-of-bounds fetch (R3, R161). -/
def resetVector : Word := 0x80000400#32

/-- ENTRY_OFFSET: where an image carries its big-endian entry address (R3, R125). -/
def entryOffset : Nat := 0x8

/-- MIN_IMAGE_LEN: the smallest image LoadImage accepts (R3, R123). -/
def minImageLen : Nat := 12

/-- LOAD_BASE: the physical address at which LoadImage starts to copy (R3, R124). -/
def loadBase : Nat := 0

/-- The NOP encoding, substituted for a word that cannot be read (R73, R93). -/
def nopWord : Word := 0x00000000#32

end Sys2Proof.Config
end

