-- ==== Sys2Proof/Machine/Parameters.lean ====
section
/-! DEFINITION. The parameters the source leaves open and the spec decides (00_scope.md R4). They stand here, where a
later repair may change a body, because they are the spec's own decisions and not the source's words. -/

namespace Sys2Proof.Machine

/-- BNE_ADJUST, added to the taken-branch displacement: 0 (R4, D9, C1; log 8). -/
def bneAdjust : Word := 0#32

/-- RESET_CLEARS_PAUSED: the Reset command keeps `paused` (R4, D4; log 4). -/
def resetClearsPaused : Bool := false

/-- FETCH_OOB_RULE: a fetch at physical address `p` is out of bounds when its first byte is outside the image
(R4, R72, D8; log 7). -/
def fetchOutOfBounds (p : Nat) : Bool := decide (Config.memSize ≤ p)

end Sys2Proof.Machine
end

