-- ==== Sys2Proof/Machine/Operands.lean ====
section
/-! DEFINITION. Operand assembly: how each instruction forms its operand from instruction bits (30_encoding.md R53,
41_alu.md R94). -/

namespace Sys2Proof.Machine

/-- `sext_32` of a 16-bit value: bit 15 copied into bits 31:16 (00_scope.md notation, R94). -/
def sext32 (v : BitVec 16) : Word := v.signExtend 32

/-- ADDI's addend (R53). -/
def addiOperand (imm : BitVec 16) : Word := sext32 imm

/-- LUI's result: `imm` in bits 31:16, bits 15:0 zero (R53, R92). -/
def luiValue (imm : BitVec 16) : Word := imm.zeroExtend 32 <<< 16

/-- BNE's byte displacement: sign-extended, then shifted left 2 within 32 bits (R53, R94). -/
def branchDisplacement (offset : BitVec 16) : Word := sext32 offset <<< 2

/-- The taken-branch target, relative to the already advanced pc (R105; BNE_ADJUST is 0, D9). -/
def branchTarget (pcNext : Word) (offset : BitVec 16) : Word :=
  pcNext + branchDisplacement offset + bneAdjust

/-- J's target: the top 4 bits of the already advanced pc, the 26-bit target, two zero bits (R53, R107). -/
def jumpTarget (pcNext : Word) (target : BitVec 26) : Word :=
  (pcNext &&& 0xF0000000#32) ||| (target.zeroExtend 32 <<< 2)

end Sys2Proof.Machine
end

