-- ==== Sys2Proof/Syntax.lean ====
section
/-! DEFINITION. The instructions: one constructor per row of spec/opcode_table.json (30_encoding.md R52, R55).
A constructor keeps the bits the hardware ignores (R56) as operands, so that an instruction is exactly one word
(log 19); the meanings do not read them. -/

namespace Sys2Proof

inductive Instr where
  /-- ADD, R-type, opcode 0x00, funct 0x20 (R90); `shamt` is ignored. -/
  | add (rs rt rd : RegNum) (shamt : BitVec 5)
  /-- SLL-as-NOP, R-type, opcode 0x00, funct 0x00 (R93); every operand is ignored. -/
  | sllNop (rs rt rd : RegNum) (shamt : BitVec 5)
  /-- J, J-type, opcode 0x02 (R107). -/
  | j (target : BitVec 26)
  /-- BNE, I-type, opcode 0x05 (R105); `offset` is a signed count of words. -/
  | bne (rs rt : RegNum) (offset : BitVec 16)
  /-- ADDI, I-type, opcode 0x08 (R91); `rt` is the destination. -/
  | addi (rs rt : RegNum) (imm : BitVec 16)
  /-- LUI, I-type, opcode 0x0F (R92); `rt` is the destination, `rs` is ignored. -/
  | lui (rs rt : RegNum) (imm : BitVec 16)
  /-- LW, I-type, opcode 0x23 (R100); inert, every operand is ignored. -/
  | lw (base rt : RegNum) (offset : BitVec 16)
  /-- SW, I-type, opcode 0x2B (R101); inert, every operand is ignored. -/
  | sw (base rt : RegNum) (offset : BitVec 16)
  /-- An unrecognised funct under opcode 0x00 (R115); every operand but `funct` is ignored. -/
  | unrecFunct (rs rt rd : RegNum) (shamt : BitVec 5) (funct : BitVec 6)
  /-- An unrecognised primary opcode (R113); `rest`, bits 25:0 of the word, is ignored. -/
  | unrecOpcode (opcode : BitVec 6) (rest : BitVec 26)
  deriving DecidableEq, Repr

/-- The mnemonic of the instruction's row, as spec/opcode_table.json spells it. -/
def Instr.mnemonic : Instr → String
  | .add .. => "ADD"
  | .sllNop .. => "SLL-as-NOP"
  | .j .. => "J"
  | .bne .. => "BNE"
  | .addi .. => "ADDI"
  | .lui .. => "LUI"
  | .lw .. => "LW"
  | .sw .. => "SW"
  | .unrecFunct .. => "NOP.UNRECOGNISED_FUNCT"
  | .unrecOpcode .. => "NOP.UNRECOGNISED_OPCODE"

end Sys2Proof
end

