-- ==== Sys2Proof/WellFormed.lean ====
section
/-! DEFINITION. Which terms of `Instr` are instructions: the two fallback rows apply only where no specific row
matches (30_encoding.md R55). Every operand width is in its type already. -/

namespace Sys2Proof

/-- The funct values the dispatch table names under opcode 0x00 (R54): 0x20 ADD and 0x00 SLL-as-NOP. -/
def recognisedFunct (f : BitVec 6) : Bool :=
  f == 0x20#6 || f == 0x00#6

/-- The seven recognised primary opcodes (R113). -/
def recognisedOpcode (o : BitVec 6) : Bool :=
  o == 0x00#6 || o == 0x02#6 || o == 0x05#6 || o == 0x08#6 || o == 0x0F#6 || o == 0x23#6 || o == 0x2B#6

/-- A term is well formed when its word selects the term's own row (R55). -/
def Instr.wf : Instr → Bool
  | .add _ _ _ _ => true
  | .sllNop _ _ _ _ => true
  | .j _ => true
  | .bne _ _ _ => true
  | .addi _ _ _ => true
  | .lui _ _ _ => true
  | .lw _ _ _ => true
  | .sw _ _ _ => true
  | .unrecFunct _ _ _ _ funct => !recognisedFunct funct
  | .unrecOpcode opcode _ => !recognisedOpcode opcode

end Sys2Proof
end

