-- ==== Sys2Proof/Decode.lean ====
section
/-! DEFINITION. Decoding (30_encoding.md R52, R54, R55), total on words and on byte lists, and the encoder written
from the same formats. The positions of rs, rt, rd, shamt and imm are the spec's decision D15 (PRESUMED, log 11). -/

namespace Sys2Proof

/-! ### Bytes and words, big-endian (20_memory.md R33) -/

/-- The big-endian word of four bytes, the first in bits 31:24 (R33). -/
def beWord (b0 b1 b2 b3 : Byte) : Word := b0 ++ b1 ++ b2 ++ b3

/-- The four bytes of a word in the order memory holds them (R33). -/
def wordBytes (w : Word) : List Byte :=
  [w.extractLsb' 24 8, w.extractLsb' 16 8, w.extractLsb' 8 8, w.extractLsb' 0 8]

/-! ### Fields (R52) -/

/-- Bits 31:26, the primary opcode. -/
def fieldOpcode (iw : Word) : BitVec 6 := iw.extractLsb' 26 6
/-- Bits 25:21. -/
def fieldRs (iw : Word) : RegNum := iw.extractLsb' 21 5
/-- Bits 20:16. -/
def fieldRt (iw : Word) : RegNum := iw.extractLsb' 16 5
/-- Bits 15:11. -/
def fieldRd (iw : Word) : RegNum := iw.extractLsb' 11 5
/-- Bits 10:6. -/
def fieldShamt (iw : Word) : BitVec 5 := iw.extractLsb' 6 5
/-- Bits 5:0. -/
def fieldFunct (iw : Word) : BitVec 6 := iw.extractLsb' 0 6
/-- Bits 15:0. -/
def fieldImm (iw : Word) : BitVec 16 := iw.extractLsb' 0 16
/-- Bits 25:0. -/
def fieldTarget (iw : Word) : BitVec 26 := iw.extractLsb' 0 26

/-- Decoding under primary opcode 0x00, by funct (R54). -/
def decodeSpecial (iw : Word) : Instr :=
  if fieldFunct iw = 0x20#6 then .add (fieldRs iw) (fieldRt iw) (fieldRd iw) (fieldShamt iw)
  else if fieldFunct iw = 0x00#6 then .sllNop (fieldRs iw) (fieldRt iw) (fieldRd iw) (fieldShamt iw)
  else .unrecFunct (fieldRs iw) (fieldRt iw) (fieldRd iw) (fieldShamt iw) (fieldFunct iw)

/-- The decode algorithm of R54: primary opcode, and for 0x00 also funct; no other bit takes part. -/
def decode (iw : Word) : Instr :=
  if fieldOpcode iw = 0x00#6 then decodeSpecial iw
  else if fieldOpcode iw = 0x02#6 then .j (fieldTarget iw)
  else if fieldOpcode iw = 0x05#6 then .bne (fieldRs iw) (fieldRt iw) (fieldImm iw)
  else if fieldOpcode iw = 0x08#6 then .addi (fieldRs iw) (fieldRt iw) (fieldImm iw)
  else if fieldOpcode iw = 0x0F#6 then .lui (fieldRs iw) (fieldRt iw) (fieldImm iw)
  else if fieldOpcode iw = 0x23#6 then .lw (fieldRs iw) (fieldRt iw) (fieldImm iw)
  else if fieldOpcode iw = 0x2B#6 then .sw (fieldRs iw) (fieldRt iw) (fieldImm iw)
  else .unrecOpcode (fieldOpcode iw) (fieldTarget iw)

/-! ### Decoding bytes -/

/-- Why a byte list is no instruction. No word of four bytes is ever rejected (R57). -/
inductive DecodeReject where
  /-- Fewer than the four bytes of an instruction word (R50). Safe: a fetch never decodes such a list (R73). -/
  | truncatedWord
  deriving DecidableEq, Repr

/-- The instruction at the head of a byte list, with the rest of the list (R50, R33). -/
def decodeBytes : List Byte → Except DecodeReject (Instr × List Byte)
  | b0 :: b1 :: b2 :: b3 :: rest => .ok (decode (beWord b0 b1 b2 b3), rest)
  | _ => .error .truncatedWord

/-- A table word of `nbits` bits (all bits above are 0), laid out big-endian and given to the decoder. More than the
32 bits of R50 is no instruction of this hardware (log 23). -/
def decodeTableWord (nbits w : Nat) : Option Instr :=
  if nbits ≤ 32 then
    match decodeBytes (wordBytes (BitVec.ofNat 32 (w % 2 ^ nbits))) with
    | .ok (i, _) => some i
    | .error _ => none
  else none

/-! ### Encoding (R52, R55) -/

/-- R-type word. -/
def encodeR (opcode : BitVec 6) (rs rt rd : RegNum) (shamt : BitVec 5) (funct : BitVec 6) : Word :=
  opcode ++ rs ++ rt ++ rd ++ shamt ++ funct

/-- I-type word. -/
def encodeI (opcode : BitVec 6) (rs rt : RegNum) (imm : BitVec 16) : Word :=
  opcode ++ rs ++ rt ++ imm

/-- J-type word; also a word of which only the opcode counts. -/
def encodeJ (opcode : BitVec 6) (target : BitVec 26) : Word :=
  opcode ++ target

/-- The word of an instruction. -/
def encode : Instr → Word
  | .add rs rt rd shamt => encodeR 0x00#6 rs rt rd shamt 0x20#6
  | .sllNop rs rt rd shamt => encodeR 0x00#6 rs rt rd shamt 0x00#6
  | .j target => encodeJ 0x02#6 target
  | .bne rs rt offset => encodeI 0x05#6 rs rt offset
  | .addi rs rt imm => encodeI 0x08#6 rs rt imm
  | .lui rs rt imm => encodeI 0x0F#6 rs rt imm
  | .lw base rt offset => encodeI 0x23#6 base rt offset
  | .sw base rt offset => encodeI 0x2B#6 base rt offset
  | .unrecFunct rs rt rd shamt funct => encodeR 0x00#6 rs rt rd shamt funct
  | .unrecOpcode opcode rest => encodeJ opcode rest

/-! ### The opcode map as mask and match (R55) -/

/-- One row of the map: a word selects it when the word and `mask` give `bits`. -/
structure OpcodeRow where
  mnemonic : String
  mask : Word
  bits : Word
  deriving DecidableEq, Repr

/-- Whether a word selects a row (R55). -/
def OpcodeRow.selects (row : OpcodeRow) (iw : Word) : Bool := iw &&& row.mask == row.bits

/-- The eight specific rows of R55, in the table's order. -/
def specificRows : List OpcodeRow :=
  [⟨"ADD", 0xFC00003F#32, 0x00000020#32⟩,
   ⟨"SLL-as-NOP", 0xFC00003F#32, 0x00000000#32⟩,
   ⟨"J", 0xFC000000#32, 0x08000000#32⟩,
   ⟨"BNE", 0xFC000000#32, 0x14000000#32⟩,
   ⟨"ADDI", 0xFC000000#32, 0x20000000#32⟩,
   ⟨"LUI", 0xFC000000#32, 0x3C000000#32⟩,
   ⟨"LW", 0xFC000000#32, 0x8C000000#32⟩,
   ⟨"SW", 0xFC000000#32, 0xAC000000#32⟩]

/-- The two fallback rows of R55, which apply only when no specific row matches. -/
def fallbackRows : List OpcodeRow :=
  [⟨"NOP.UNRECOGNISED_FUNCT", 0xFC000000#32, 0x00000000#32⟩,
   ⟨"NOP.UNRECOGNISED_OPCODE", 0x00000000#32, 0x00000000#32⟩]

/-- The mnemonic of the first row a word selects, the fallback rows last (R55). -/
def rowMnemonic (iw : Word) : Option String :=
  ((specificRows ++ fallbackRows).find? (·.selects iw)).map (·.mnemonic)

end Sys2Proof
end

