-- ==== Sys2Proof/Machine/State.lean ====
section
/-! DEFINITION. The state of the engine, "State = x[1..31], pc, MEM, CYCLE, live, paused, and nothing else"
(10_state.md, R18), why a step could stop (it never does: R79), and the state after power-on (R21). -/

namespace Sys2Proof.Machine

/-- Memory contents as (address, byte) pairs, addresses rising, no entry equal to what an unlisted address reads as
(`Memory.wf` of Machine/Ops.lean is the form). -/
abbrev Memory := List Host.Cell

/-- The complete state (R18). Register 0 has no storage: `x` holds x[1] to x[31], x[r] at index r - 1 (R11). -/
structure State where
  /-- x[1] to x[31] (R10). -/
  x : Vector Word 31
  /-- The program counter, a virtual address (R14). -/
  pc : Word
  /-- The memory image MEM (R19, R30). -/
  mem : Memory
  /-- CYCLE, a natural number that never wraps (R16, D7). -/
  cycle : Nat
  /-- The engine's run flag (R17). -/
  live : Bool
  /-- The pause flag (R17). -/
  paused : Bool
  deriving DecidableEq, Repr

/-- Why a step stops with a fault: for no reason. "A model's step is therefore a total function, with no fault outcome
and no stuck state" (R79, R140; log 20). -/
inductive Fault
  deriving DecidableEq, Repr

/-- Why an instruction is refused. -/
inductive Refusal where
  /-- Raised by an arm of `exec` whose instruction has no meaning yet; no arm does so (log 20). Safe: the model stops. -/
  | notModelled (mnemonic : String)
  deriving DecidableEq, Repr

/-- The state after PowerOn (R21), with MEM_INIT all zero (D6's recommended default; DESIGN CHOICE, log 1). -/
def State.reset : State where
  x := Vector.replicate 31 0#32
  pc := Config.resetVector
  mem := []
  cycle := 0
  live := false
  paused := false

end Sys2Proof.Machine
end

