-- ==== Sys2Proof/Machine/Ops.lean ====
section
/-! DEFINITION. The named operations over memory, registers and pc that the meanings and the step share. There is no
trap entry and no trap return to define (60_exceptions.md R144, R145); the one involuntary transfer of control is
`State.recoverPc`. -/

namespace Sys2Proof.Machine

/-! ### Memory (20_memory.md) -/

/-- What an address that no pair lists reads as: the power-on byte of `State.reset` (D6; DESIGN CHOICE, log 1). -/
def Memory.unlistedByte : Byte := 0x00#8

/-- The byte at a physical address (R30). -/
def Memory.read : Memory → Nat → Byte
  | [], _ => Memory.unlistedByte
  | (a, b) :: rest, p => if p = a then b else Memory.read rest p

/-- The list with `(p, b)` put in front, unless `b` is what an unlisted address reads as. -/
def Memory.consCell (p : Nat) (b : Byte) (m : Memory) : Memory :=
  if b = Memory.unlistedByte then m else (p, b) :: m

/-- The memory after one byte is written: the canonical form is kept. -/
def Memory.write : Memory → Nat → Byte → Memory
  | [], p, b => Memory.consCell p b []
  | (a, c) :: rest, p, b =>
    if p < a then Memory.consCell p b ((a, c) :: rest)
    else if p = a then Memory.consCell p b rest
    else (a, c) :: Memory.write rest p b

/-- Bytes written one after another from `base` upward (the copy loop of R124). -/
def Memory.writeBytes (m : Memory) (base : Nat) : List Byte → Memory
  | [] => m
  | b :: bs => Memory.writeBytes (m.write base b) (base + 1) bs

/-- Every listed address is at least `lo` and inside the image, addresses rise strictly, and no listed byte equals what
an unlisted address reads as. -/
def Memory.wfFrom (lo : Nat) : Memory → Bool
  | [] => true
  | (a, b) :: rest =>
    decide (lo ≤ a) && decide (a < Config.memSize) && b != Memory.unlistedByte && Memory.wfFrom (a + 1) rest

/-- The canonical form of a memory: equal memories are equal lists. -/
def Memory.wf (m : Memory) : Bool := Memory.wfFrom 0 m

/-- MemRead(p, 4) of R33: the big-endian word at `p`, defined only when `p + 4 ≤ MEM_SIZE`; otherwise the read fails
(R73). -/
def Memory.readWord (m : Memory) (p : Nat) : Option Word :=
  if p + 4 ≤ Config.memSize then
    some (beWord (m.read p) (m.read (p + 1)) (m.read (p + 2)) (m.read (p + 3)))
  else none

/-- The translator: `va & 0x1FFFFFFF`, applied to every virtual address (R31). -/
def translateVa (va : Word) : PhysAddr := (va &&& Config.physMask).truncate 29

/-! ### Registers (10_state.md R10, R11) -/

/-- The storage index of a register other than 0. -/
theorem regIndex_lt (r : RegNum) : r.toNat - 1 < 31 := by
  have := r.isLt
  omega

/-- `x[r]`: register 0 reads as 0 in every state (R11). -/
def State.readReg (s : State) (r : RegNum) : Word :=
  if r = 0#5 then 0#32 else s.x[r.toNat - 1]'(regIndex_lt r)

/-- `x[r] <- v`: a write to register 0 is discarded (R11). -/
def State.writeReg (s : State) (r : RegNum) (v : Word) : State :=
  if r = 0#5 then s else { s with x := s.x.set (r.toNat - 1) v (regIndex_lt r) }

/-! ### The parts of a step that are not an instruction's own (40_step_cycle.md) -/

/-- `pc <- t`. -/
def State.writePc (s : State) (t : Word) : State := { s with pc := t }

/-- RunState (R17, R154). -/
inductive RunState where
  | stopped
  | paused
  | running
  deriving DecidableEq, Repr

/-- The tri-state derived from the two bits: live = 0 reads as Stopped whatever `paused` is (R17). -/
def State.runState (s : State) : RunState :=
  if s.live = false then .stopped else if s.paused then .paused else .running

/-- A Step has an effect only in RunState = Running (R70). -/
def State.running (s : State) : Bool := decide (s.runState = .running)

/-- The physical address the pc names (R71). -/
def State.fetchAddr (s : State) : Nat := (translateVa s.pc).toNat

/-- The self-healing fetch: an out-of-bounds pc is replaced by RESET_VECTOR; nothing is saved (R72, R144). -/
def State.recoverPc (s : State) : State :=
  if fetchOutOfBounds s.fetchAddr then s.writePc Config.resetVector else s

/-- The instruction word at the pc, or the NOP encoding when the read fails (R73, R74). -/
def State.fetchWord (s : State) : Word := (s.mem.readWord s.fetchAddr).getD Config.nopWord

/-- The advance `pc <- pc +32 4` before dispatch (R75). -/
def State.advancePc (s : State) : State := s.writePc (s.pc + 4#32)

/-- CYCLE <- CYCLE + 1, once in every step that is not gated (R78). -/
def State.countCycle (s : State) : State := { s with cycle := s.cycle + 1 }

/-- An outcome with a function applied to its next state. -/
def mapNext {α β : Type} (f : α → β) : Host.Outcome α Fault Refusal → Host.Outcome β Fault Refusal
  | .next a => .next (f a)
  | .fault e => .fault e
  | .refused r => .refused r

/-- An outcome's next state given to what comes next. -/
def thenNext {α β : Type} (o : Host.Outcome α Fault Refusal) (f : α → Host.Outcome β Fault Refusal) :
    Host.Outcome β Fault Refusal :=
  match o with
  | .next a => f a
  | .fault e => .fault e
  | .refused r => .refused r

end Sys2Proof.Machine
end

