-- ==== Sys2Proof/Machine/Alu.lean ====
section
/-! DEFINITION. The meanings of ADD, ADDI, LUI and SLL-as-NOP (41_alu.md). Each is the dispatch part of a step: the state
it is given holds PC_next in its pc (40_step_cycle.md R75; log 18). -/

namespace Sys2Proof.Machine

/-- ADD: x[rd] <- x[rs] +32 x[rt]; both operands are read before the write (R90). -/
def execAdd (rs rt rd : RegNum) (_shamt : BitVec 5) (s : State) : Host.Outcome State Fault Refusal :=
  .next (s.writeReg rd (s.readReg rs + s.readReg rt))

/-- ADDI: x[rt] <- x[rs] +32 sext_32(imm) (R91). -/
def execAddi (rs rt : RegNum) (imm : BitVec 16) (s : State) : Host.Outcome State Fault Refusal :=
  .next (s.writeReg rt (s.readReg rs + addiOperand imm))

/-- LUI: x[rt] <- imm, 16 zero bits; rs is ignored (R92). -/
def execLui (_rs rt : RegNum) (imm : BitVec 16) (s : State) : Host.Outcome State Fault Refusal :=
  .next (s.writeReg rt (luiValue imm))

/-- SLL-as-NOP: no state change, whatever its fields (R93). -/
def execSllNop (_rs _rt _rd : RegNum) (_shamt : BitVec 5) (s : State) : Host.Outcome State Fault Refusal :=
  .next s

end Sys2Proof.Machine
end

