-- ==== Sys2Proof/Machine/Flags.lean ====
section
/-! DEFINITION. The hardware has no flag, condition code or predicate register (10_state.md section 3, R18), and ADD and
ADDI record no carry or overflow (R90, R94); the one condition an instruction evaluates is BNE's. -/

namespace Sys2Proof.Machine

/-- BNE's condition: two 32-bit values differ in some bit; it has no signed or unsigned variant (R94, R105). -/
def differ (a b : Word) : Bool := a != b

end Sys2Proof.Machine
end

