-- ==== Sys2Proof/Machine/Control.lean ====
section
/-! DEFINITION. The meanings of BNE and J (43_control_transfer.md). The pc of the state they are given is PC_next; there is
no delay slot (R109). -/

namespace Sys2Proof.Machine

/-- BNE: if x[rs] differs from x[rt], pc <- PC_next +32 (sext_32(offset) << 2); else pc stays PC_next (R105, D9). -/
def execBne (rs rt : RegNum) (offset : BitVec 16) (s : State) : Host.Outcome State Fault Refusal :=
  .next (if differ (s.readReg rs) (s.readReg rt) then s.writePc (branchTarget s.pc offset) else s)

/-- J: pc <- PC_next[31:28], target, 00; no link register is written (R107). -/
def execJ (target : BitVec 26) (s : State) : Host.Outcome State Fault Refusal :=
  .next (s.writePc (jumpTarget s.pc target))

end Sys2Proof.Machine
end

