-- ==== Sys2Proof/Machine/LoadStore.lean ====
section
/-! DEFINITION. The meanings of LW and SW: recognised and inert (42_load_store.md R100, R101; C7, D14; log 14). "A model
built from this spec must not give LW or SW a memory effect." -/

namespace Sys2Proof.Machine

/-- LW: no address is computed, no byte is read, no register is written (R100). -/
def execLw (_base _rt : RegNum) (_offset : BitVec 16) (s : State) : Host.Outcome State Fault Refusal :=
  .next s

/-- SW: no address is computed, no register is read, no byte of MEM changes (R101). -/
def execSw (_base _rt : RegNum) (_offset : BitVec 16) (s : State) : Host.Outcome State Fault Refusal :=
  .next s

end Sys2Proof.Machine
end

