-- ==== Sys2Proof/Machine/Unrecognised.lean ====
section
/-! DEFINITION. The meanings of the two fallback rows: every unrecognised word is a no-operation
(44_system_and_unrecognized.md R113, R115, R117), among them every MIPS system, trap, coprocessor, load, store and
branch encoding of the catalogue R114. -/

namespace Sys2Proof.Machine

/-- An unrecognised funct under opcode 0x00: no operation (R115, D10; log 9). -/
def execUnrecFunct (_rs _rt _rd : RegNum) (_shamt : BitVec 5) (_funct : BitVec 6) (s : State) :
    Host.Outcome State Fault Refusal :=
  .next s

/-- An unrecognised primary opcode: no operation, no error (R113). -/
def execUnrecOpcode (_opcode : BitVec 6) (_rest : BitVec 26) (s : State) : Host.Outcome State Fault Refusal :=
  .next s

end Sys2Proof.Machine
end

