-- ==== Sys2Proof/Machine/Dispatch.lean ====
section
/-! DEFINITION. Dispatch: the selected instruction's rule, applied once (40_step_cycle.md R76). -/

namespace Sys2Proof.Machine

def exec (i : Instr) (s : State) : Host.Outcome State Fault Refusal :=
  match i with
  | .add rs rt rd shamt => Sys2Proof.Machine.execAdd rs rt rd shamt s
  | .sllNop rs rt rd shamt => Sys2Proof.Machine.execSllNop rs rt rd shamt s
  | .j target => Sys2Proof.Machine.execJ target s
  | .bne rs rt offset => Sys2Proof.Machine.execBne rs rt offset s
  | .addi rs rt imm => Sys2Proof.Machine.execAddi rs rt imm s
  | .lui rs rt imm => Sys2Proof.Machine.execLui rs rt imm s
  | .lw base rt offset => Sys2Proof.Machine.execLw base rt offset s
  | .sw base rt offset => Sys2Proof.Machine.execSw base rt offset s
  | .unrecFunct rs rt rd shamt funct => Sys2Proof.Machine.execUnrecFunct rs rt rd shamt funct s
  | .unrecOpcode opcode rest => Sys2Proof.Machine.execUnrecOpcode opcode rest s

end Sys2Proof.Machine
end

