-- ==== Sys2Proof/Machine/Fetch.lean ====
section
/-! DEFINITION. What one step does before dispatch (40_step_cycle.md R71 to R75), and placing a word where the next step
fetches (log 17). -/

namespace Sys2Proof.Machine

/-- The instruction a step that is not gated dispatches: bounds correction, fetch, decode (R72 to R76). -/
def State.fetchedInstr (s : State) : Instr := decode s.recoverPc.fetchWord

/-- The state dispatch begins in: pc corrected, then advanced to PC_next (R72, R75). -/
def State.dispatchState (s : State) : State := s.recoverPc.advancePc

/-- A pc whose fetch reads memory: the pc itself, or RESET_VECTOR where the fetch would be out of bounds or short. -/
def State.readablePc (s : State) : Word :=
  if s.fetchAddr + 4 ≤ Config.memSize then s.pc else Config.resetVector

/-- The engine running, with a word stored where its next step fetches. The pc changes only where nothing would be read
at it (a short read); an out-of-bounds pc recovers to the same place by itself (R72). -/
def State.placeWord (s : State) (w : Word) : State :=
  { s with
    pc := if fetchOutOfBounds s.fetchAddr then s.pc else s.readablePc
    mem := s.mem.writeBytes (translateVa s.readablePc).toNat (wordBytes w)
    live := true
    paused := false }

end Sys2Proof.Machine
end

