-- ==== Sys2Proof/Machine/Step.lean ====
section
/-! DEFINITION. One Step command (40_step_cycle.md R70 to R78): gate, recover, fetch, advance, decode, dispatch, count. -/

namespace Sys2Proof.Machine

/-- One step; a gated one changes nothing (R70), any other runs one instruction (R71 to R78). -/
def step (s : State) : Host.Outcome State Fault Refusal :=
  if s.running then mapNext State.countCycle (exec s.fetchedInstr s.dispatchState) else .next s

/-- The state whose very next step runs the table word: the word stands where the next step fetches, and the engine is
live and not paused (log 17). -/
def State.withFetchWord (s : State) (nbits w : Nat) : State :=
  s.placeWord (BitVec.ofNat 32 (w % 2 ^ nbits))

end Sys2Proof.Machine
end

