-- ==== Sys2Proof/Machine/Assembler.lean ====
section
/-! DEFINITION. The assembler notation of 30_encoding.md R58 and R59 as functions to instructions, and the register names
of 10_state.md R12. Notation only: no behaviour depends on it (D16, D17; PRESUMED, log 24). -/

namespace Sys2Proof.Asm

/-- `add rd, rs, rt`. -/
def add (rd rs rt : RegNum) : Instr := .add rs rt rd 0#5
/-- `addi rt, rs, imm`: the low 16 bits of the signed value. -/
def addi (rt rs : RegNum) (imm : Int) : Instr := .addi rs rt (BitVec.ofInt 16 imm)
/-- `lui rt, imm`. -/
def lui (rt : RegNum) (imm : BitVec 16) : Instr := .lui 0#5 rt imm
/-- `lw rt, offset(base)`. -/
def lw (rt : RegNum) (offset : Int) (base : RegNum) : Instr := .lw base rt (BitVec.ofInt 16 offset)
/-- `sw rt, offset(base)`. -/
def sw (rt : RegNum) (offset : Int) (base : RegNum) : Instr := .sw base rt (BitVec.ofInt 16 offset)
/-- `bne rs, rt, label` standing at `pcInstr`: the low 16 bits of (label - (pcInstr + 4)) / 4. -/
def bne (rs rt : RegNum) (pcInstr label : Word) : Instr :=
  .bne rs rt ((label - (pcInstr + 4#32)).extractLsb' 2 16)
/-- `j label`: target = label[27:2]. -/
def j (label : Word) : Instr := .j (label.extractLsb' 2 26)
/-- `nop`, the word 0x00000000. -/
def nop : Instr := .sllNop 0#5 0#5 0#5 0#5

/-- The 32 register names in order (R12). -/
def regNames : List String :=
  ["zero", "at", "v0", "v1", "a0", "a1", "a2", "a3"] ++
  ["t0", "t1", "t2", "t3", "t4", "t5", "t6", "t7"] ++
  ["s0", "s1", "s2", "s3", "s4", "s5", "s6", "s7"] ++
  ["t8", "t9", "k0", "k1", "gp", "sp", "fp", "ra"]

/-- The number of a register name. -/
def regNamed (name : String) : Option Nat := regNames.findIdx? (· == name)

end Sys2Proof.Asm
end

