-- ==== Sys2Proof/Machine/Commands.lean ====
section
/-! DEFINITION. The engine's seven commands (45_host_commands.md R120 to R131), each an atomic transition of the state
(D1; log 16). `Command.step` is `Machine.step`; the others are what the host does between steps. -/

namespace Sys2Proof.Machine

/-- The only error of the whole interface (R123, D21). -/
inductive LoadError where
  | truncated
  deriving DecidableEq, Repr

/-- What LoadImage returns to the host (R120). -/
inductive LoadResult where
  | ok (entryAddress : Word)
  | err (e : LoadError)
  deriving DecidableEq, Repr

/-- The six fields of a Snapshot (R130, D23). -/
structure StateView where
  pc : Word
  t0 : Word
  t1 : Word
  sp : Word
  ra : Word
  cycle : Nat
  deriving DecidableEq, Repr

/-- The commands of R120. -/
inductive Command where
  | powerOn (memInit : List Byte)
  | reset
  | loadImage (bytes : List Byte)
  | setLive (b : Bool)
  | setPaused (b : Bool)
  | step
  | snapshot
  deriving DecidableEq, Repr

/-- The results of R120's table. -/
inductive Reply where
  | none
  | load (r : LoadResult)
  | view (v : StateView)
  deriving DecidableEq, Repr

/-- PowerOn with MEM_INIT, a list of MEM_SIZE bytes (R121, R21, D5, D6; logs 1 to 3). -/
def powerOn (memInit : List Byte) : State where
  x := Vector.replicate 31 0#32
  pc := Config.resetVector
  mem := Memory.writeBytes [] 0 (memInit.take Config.memSize)
  cycle := 0
  live := false
  paused := false

/-- The Reset command: registers, pc, CYCLE and live; MEM and `paused` keep their values (R122, R21, D4; log 4). -/
def resetCommand (s : State) : State :=
  { s with
    x := Vector.replicate 31 0#32
    pc := Config.resetVector
    cycle := 0
    live := false
    paused := if resetClearsPaused then false else s.paused }

/-- The entry address an image carries, big-endian at ENTRY_OFFSET (R125). -/
def entryAddress (bytes : List Byte) : Word :=
  beWord (bytes.getD Config.entryOffset 0#8) (bytes.getD (Config.entryOffset + 1) 0#8)
    (bytes.getD (Config.entryOffset + 2) 0#8) (bytes.getD (Config.entryOffset + 3) 0#8)

/-- LoadImage: an image shorter than MIN_IMAGE_LEN changes nothing (R123); any other is copied to LOAD_BASE, bytes beyond
MEM_SIZE dropped (R124), and sets pc to its entry address (R125). Nothing else changes (R126, D13; log 13). -/
def loadImage (bytes : List Byte) (s : State) : LoadResult × State :=
  if bytes.length < Config.minImageLen then (.err .truncated, s)
  else
    (.ok (entryAddress bytes),
     { s with
       mem := s.mem.writeBytes Config.loadBase (bytes.take Config.memSize)
       pc := entryAddress bytes })

/-- SetLive(b) (R127, D19). -/
def setLive (b : Bool) (s : State) : State := { s with live := b }

/-- SetPaused(b) (R128). -/
def setPaused (b : Bool) (s : State) : State := { s with paused := b }

/-- Register numbers of the names a Snapshot shows (R12, D16; PRESUMED, log 12). -/
def regT0 : RegNum := 8#5
/-- `t1`. -/
def regT1 : RegNum := 9#5
/-- `sp`. -/
def regSp : RegNum := 29#5
/-- `ra`. -/
def regRa : RegNum := 31#5

/-- Snapshot: an immutable copy of six fields (R130). -/
def snapshot (s : State) : StateView where
  pc := s.pc
  t0 := s.readReg regT0
  t1 := s.readReg regT1
  sp := s.readReg regSp
  ra := s.readReg regRa
  cycle := s.cycle

/-- One command: its reply and the state after it (R120). -/
def issue (c : Command) (s : State) : Host.Outcome (Reply × State) Fault Refusal :=
  match c with
  | .powerOn memInit => .next (.none, powerOn memInit)
  | .reset => .next (.none, resetCommand s)
  | .loadImage bytes => .next (.load (loadImage bytes s).1, (loadImage bytes s).2)
  | .setLive b => .next (.none, setLive b s)
  | .setPaused b => .next (.none, setPaused b s)
  | .step => mapNext (fun t => (Reply.none, t)) (step s)
  | .snapshot => .next (.view (snapshot s), s)

/-- Commands applied one after another in the order the host issues them (R120), with the state after the last. -/
def issueAll : List Command → State → Host.Outcome State Fault Refusal
  | [], s => .next s
  | c :: cs, s => thenNext (issue c s) (fun r => issueAll cs r.2)

/-- `n` Step commands. -/
def stepMany : Nat → State → Host.Outcome State Fault Refusal
  | 0, s => .next s
  | n + 1, s => thenNext (step s) (stepMany n)

end Sys2Proof.Machine
end

