-- ==== Sys2Proof/Machine/Controller.lean ====
section
/-! DEFINITION. What the engine sees of the host's controller: the commands each host operation issues
(45_host_commands.md R132). The controller itself, its threads, its `active` flag as a stored thing and its timers are out
of scope (00_scope.md section 3; log 22). -/

namespace Sys2Proof.Machine

/-- The host operations of R132. -/
inductive HostOp where
  /-- `loadRom(path)`, with the file's contents, or none where reading the path fails. -/
  | loadRom (contents : Option (List Byte))
  | start
  | stop
  | pause
  | resume
  /-- One pass of the worker's burst loop, with the host's `active` flag and the burst size. -/
  | burst (active : Bool) (size : Nat)
  | readView
  | uiReset
  deriving DecidableEq, Repr

/-- The engine commands an operation issues in a state (R132). -/
def HostOp.commands (op : HostOp) (s : State) : List Command :=
  match op with
  | .loadRom none => []
  | .loadRom (some bytes) =>
    match (loadImage bytes s).1 with
    | .ok _ => [.loadImage bytes, .setLive true]
    | .err _ => [.loadImage bytes]
  | .start => []
  | .stop => [.setLive false]
  | .pause => [.setPaused true]
  | .resume => [.setPaused false]
  | .burst active size => if active && s.running then List.replicate size .step else []
  | .readView => [.snapshot]
  | .uiReset => [.reset]

/-- The engine's state after a host operation (R132). -/
def hostDo (op : HostOp) (s : State) : Host.Outcome State Fault Refusal :=
  issueAll (op.commands s) s

end Sys2Proof.Machine
end

