-- ==== Sys2Proof/Safety.lean ====
section
/-! DEFINITION. What counts as a safe run, and the invariants and relations claims are stated in. The spec's safety is
totality: "a step never fails, faults, hangs or refuses" (40_step_cycle.md R79). -/

namespace Sys2Proof.Machine

/-- A Step command in this state answers a next state (R79). -/
def State.StepCompletes (s : State) : Prop := ∃ t, step s = .next t

/-- The memory is in its canonical form. -/
def State.MemCanonical (s : State) : Prop := s.mem.wf = true

/-- The pc is a multiple of 4 (R15). -/
def State.PcAligned (s : State) : Prop := s.pc.extractLsb' 0 2 = 0#2

/-- What every Step keeps: canonical memory and an aligned pc (R15, R36). -/
structure State.Inv (s : State) : Prop where
  canonical : s.MemCanonical
  aligned : s.PcAligned

/-- Two states agree on everything but the pc, and their pcs name the same physical address (R32). -/
structure State.Alias (s t : State) : Prop where
  x : s.x = t.x
  mem : s.mem = t.mem
  cycle : s.cycle = t.cycle
  live : s.live = t.live
  paused : s.paused = t.paused
  pc : translateVa s.pc = translateVa t.pc

/-- Every byte of memory reads the same in both states. -/
def State.SameMem (s t : State) : Prop := ∀ a, t.mem.read a = s.mem.read a

/-- Every register reads the same in both states. -/
def State.SameRegs (s t : State) : Prop := ∀ r, t.readReg r = s.readReg r

/-- CYCLE and the two run flags are the same in both states. -/
structure State.SameControl (s t : State) : Prop where
  cycle : t.cycle = s.cycle
  live : t.live = s.live
  paused : t.paused = s.paused

/-- The engine is running and the four bytes at the pc are inside the image and hold the word `w`, big-endian: the next
step fetches `w` at the pc as it is (R70, R71, R74). -/
structure State.Fetches (s : State) (w : Word) : Prop where
  running : s.live = true ∧ s.paused = false
  inside : (translateVa s.pc).toNat + 4 ≤ 0x800000
  word : (s.mem.read (translateVa s.pc).toNat ++ s.mem.read ((translateVa s.pc).toNat + 1) ++
    s.mem.read ((translateVa s.pc).toNat + 2) ++ s.mem.read ((translateVa s.pc).toNat + 3) : Word) = w

/-- The whole effect of a step that is NOP-equivalent: pc + 4, CYCLE + 1, nothing else (R77). -/
def State.nopStep (s : State) : State := { s with pc := s.pc + 4#32, cycle := s.cycle + 1 }

/-- A state some sequence of commands after a PowerOn leads to (R120, R121). -/
def State.Reachable (t : State) : Prop :=
  ∃ memInit cs, issueAll cs (powerOn memInit) = .next t

end Sys2Proof.Machine
end

