-- ==== Sys2Proof/Certificates/Slice0/Obligations.lean ====
section
/-! DEFINITION. The statements for the provers, from the numbered rules of spec/. A statement whose docstring names a
decision D<n> of 92_eei_decisions.md rests on that decision of the spec's and not on the source's words. -/

open Sys2Proof Sys2Proof.Machine

/-! ### Power-on, Reset and the other commands (45_host_commands.md) -/

/-- R121, R21: PowerOn gives every piece of state its power-on value, whatever the state before. The values of the
registers, CYCLE and the flags are decision D5, the memory argument MEM_INIT decision D6 (logs 1 to 3). -/
def Obligations.PowerOnGivesEveryPowerOnValue : Prop :=
  ∀ (memInit : List Byte) (s : State), ∃ t, issue (.powerOn memInit) s = .next (.none, t) ∧
    (∀ r, t.readReg r = 0#32) ∧ t.pc = 0x80000400#32 ∧ t.cycle = 0 ∧ t.live = false ∧ t.paused = false ∧
    ∀ a, a < memInit.length → a < 0x800000 → t.mem.read a = memInit.getD a 0x00#8

/-- R21: `State.reset` holds the power-on values (D5, log 3); its memory is all zero by the model's choice (D6, log
1). -/
def Obligations.ResetStateHoldsThePowerOnValues : Prop :=
  (∀ r, State.reset.readReg r = 0#32) ∧ State.reset.pc = 0x80000400#32 ∧ State.reset.cycle = 0 ∧
    State.reset.live = false ∧ State.reset.paused = false ∧ State.reset.runState = .stopped ∧
    ∀ a, State.reset.mem.read a = 0x00#8

/-- R122: the Reset command zeroes the registers and CYCLE, sets pc to the reset vector, clears live, and keeps
memory; that it keeps `paused` is decision D4 (log 4). Steps after it are gated until the host sets live again: that
live = 0 gates a Step is decision D3 (log 5). -/
def Obligations.ResetCommandKeepsMemoryAndPaused : Prop :=
  ∀ s : State, ∃ t, issue .reset s = .next (.none, t) ∧
    (∀ r, t.readReg r = 0#32) ∧ t.pc = 0x80000400#32 ∧ t.cycle = 0 ∧ t.live = false ∧
    t.paused = s.paused ∧ s.SameMem t ∧ ∀ n, stepMany n t = .next t

/-- R123: an image of fewer than 12 bytes is refused with Truncated and changes nothing (the empty one too: D21); any
other image is accepted. -/
def Obligations.LoadImageFailsExactlyBelowTwelveBytes : Prop :=
  ∀ (bytes : List Byte) (s : State),
    (bytes.length < 12 → issue (.loadImage bytes) s = .next (.load (.err .truncated), s)) ∧
    (12 ≤ bytes.length → ∃ e t, issue (.loadImage bytes) s = .next (.load (.ok e), t))

/-- R124: LoadImage copies the bytes in order from physical 0, drops those beyond the image, and leaves the rest of
memory as it was (D13, log 13). -/
def Obligations.LoadImageCopiesTheBytesInOrder : Prop :=
  ∀ (bytes : List Byte) (s : State), 12 ≤ bytes.length → s.MemCanonical →
    ∃ e t, issue (.loadImage bytes) s = .next (.load (.ok e), t) ∧
      ∀ a, t.mem.read a = if a < bytes.length ∧ a < 0x800000 then bytes.getD a 0x00#8 else s.mem.read a

/-- R125: on success pc and the result are the big-endian word at bytes 8 to 11 of the input, whatever its value; those
bytes are in memory too. -/
def Obligations.LoadImageSetsPcToTheEntryAddress : Prop :=
  ∀ (head rest : List Byte) (b0 b1 b2 b3 : Byte) (s : State), head.length = 8 →
    ∃ t, issue (.loadImage (head ++ [b0, b1, b2, b3] ++ rest)) s = .next (.load (.ok (b0 ++ b1 ++ b2 ++ b3)), t) ∧
      t.pc = b0 ++ b1 ++ b2 ++ b3 ∧
      (s.MemCanonical → ∀ a, a < 12 → t.mem.read a = (head ++ [b0, b1, b2, b3] ++ rest).getD a 0x00#8)

/-- R126: LoadImage changes memory and pc and nothing else (CYCLE and the flags by D13, log 13). -/
def Obligations.LoadImageLeavesRegistersCycleAndFlags : Prop :=
  ∀ (bytes : List Byte) (s : State), ∃ r t, issue (.loadImage bytes) s = .next (r, t) ∧ s.SameRegs t ∧ s.SameControl t

/-- R128: SetPaused(b) writes `paused` and nothing else; set while live = 0 it takes effect when live becomes 1. The
last clause reads the run state from the two bits (D2, log 5) and issues the SetLive command (D19, log 22). -/
def Obligations.SetPausedWritesOnlyPaused : Prop :=
  ∀ (b : Bool) (s : State), ∃ t, issue (.setPaused b) s = .next (.none, t) ∧
    t.paused = b ∧ s.SameRegs t ∧ t.pc = s.pc ∧ s.SameMem t ∧ t.cycle = s.cycle ∧ t.live = s.live ∧
    ∃ u, issue (.setLive true) t = .next (.none, u) ∧ u.runState = if b then .paused else .running

/-- R127 (D19): SetLive(b) writes `live` and nothing else. -/
def Obligations.SetLiveWritesOnlyLive : Prop :=
  ∀ (b : Bool) (s : State), ∃ t, issue (.setLive b) s = .next (.none, t) ∧
    t.live = b ∧ s.SameRegs t ∧ t.pc = s.pc ∧ s.SameMem t ∧ t.cycle = s.cycle ∧ t.paused = s.paused

/-- R130: Snapshot returns pc, x[8], x[9], x[29], x[31] and CYCLE and changes no state (register numbers: D16,
the exact set: D23, log 12). -/
def Obligations.SnapshotReadsSixFieldsAndChangesNothing : Prop :=
  ∀ s : State, issue .snapshot s = .next (.view ⟨s.pc, s.readReg 8#5, s.readReg 9#5, s.readReg 29#5, s.readReg 31#5, s.cycle⟩, s)

/-- R17, R154 (D2, D3, log 5): the run state is Stopped, Paused or Running by the two bits, and only a Running
engine's step counts. -/
def Obligations.RunStateFollowsTheTwoBits : Prop :=
  ∀ s : State, (s.runState = .stopped ↔ s.live = false) ∧
    (s.runState = .paused ↔ s.live = true ∧ s.paused = true) ∧
    (s.runState = .running ↔ s.live = true ∧ s.paused = false) ∧
    ∃ t, step s = .next t ∧ (t.cycle = s.cycle + 1 ↔ s.runState = .running)

/-- R133 (C4; gating at live = 0: D3, log 5): the host's stop and start keep x, pc, CYCLE and memory, and steps stay
gated until live is set again. -/
def Obligations.StopThenStartKeepsTheState : Prop :=
  ∀ s : State, ∃ t u, hostDo .stop s = .next t ∧ hostDo .start t = .next u ∧
    s.SameRegs u ∧ u.pc = s.pc ∧ s.SameMem u ∧ u.cycle = s.cycle ∧ u.paused = s.paused ∧ u.live = false ∧
    (∀ n, stepMany n u = .next u) ∧ ∃ v, issue (.setLive true) u = .next (.none, v) ∧ v.live = true

/-- R132 (what sets live: D19, log 22; the empty image: D21, log 13): a loadRom that cannot read its file, or whose
image is too short, leaves the state; a good one marks the engine live at the image's entry address. -/
def Obligations.LoadRomSetsLiveOnlyOnSuccess : Prop :=
  ∀ s : State, hostDo (.loadRom none) s = .next s ∧
    (∀ bytes, bytes.length < 12 → hostDo (.loadRom (some bytes)) s = .next s) ∧
    ∀ bytes, 12 ≤ bytes.length → ∃ e t u, issue (.loadImage bytes) s = .next (.load (.ok e), t) ∧
      hostDo (.loadRom (some bytes)) s = .next u ∧ u = { t with live := true } ∧ u.pc = e

/-! ### The step cycle (40_step_cycle.md) -/

/-- R70: a step with `live = 0` (D3, log 5) or `paused = 1` (C2) changes nothing at all. -/
def Obligations.GatedStepChangesNothing : Prop :=
  ∀ s : State, s.live = false ∨ s.paused = true → step s = .next s

/-- R71, R74, R75, R76, R78 (no alignment check, pc modulo 2^32: D11, D12, log 10): a running step whose pc is inside
the image is the dispatch of the instruction its word decodes to, on the state with pc + 4, and then CYCLE + 1. -/
def Obligations.StepRunsTheDecodedInstruction : Prop :=
  ∀ (s : State) (w : Word), s.Fetches w →
    ∃ t, exec (decode w) { s with pc := s.pc + 4#32 } = .next t ∧ step s = .next { t with cycle := t.cycle + 1 }

/-- R72 (bounds rule D8, log 7): a running step whose pc is outside the image runs the word at physical 0x400 as if
the pc had been 0x80000400, counting one cycle; the old pc has no other effect. -/
def Obligations.OutOfBoundsFetchRecoversInTheSameStep : Prop :=
  ∀ (s : State) (w : Word), s.live = true → s.paused = false → 0x800000 ≤ (translateVa s.pc).toNat →
    (s.mem.read 0x400 ++ s.mem.read 0x401 ++ s.mem.read 0x402 ++ s.mem.read 0x403 : Word) = w →
    step s = step { s with pc := 0x80000400#32 } ∧
    ∃ t, exec (decode w) { s with pc := 0x80000404#32 } = .next t ∧ step s = .next { t with cycle := t.cycle + 1 }

/-- R73 (D8, log 7): fewer than 4 bytes left: the word is the NOP whatever bytes there are, pc advances by 4, and the
next fetch is out of bounds. -/
def Obligations.ShortReadStepsAsNop : Prop :=
  ∀ s : State, s.live = true → s.paused = false → (translateVa s.pc).toNat < 0x800000 →
    0x800000 < (translateVa s.pc).toNat + 4 →
    step s = .next s.nopStep ∧ 0x800000 ≤ (translateVa s.nopStep.pc).toNat

/-- R79: for every state and every memory content a step gives exactly one next state. -/
def Obligations.EveryStepGivesOneNextState : Prop :=
  ∀ s : State, ∃! t, step s = .next t

/-- R78 (gating at live = 0: D3, log 5): CYCLE goes up by exactly 1 in every step that is not gated, whatever the
instruction word, and no other command and no gated step increments it. -/
def Obligations.CycleCountsExactlyTheStepsNotGated : Prop :=
  ∀ (c : Command) (s : State), ∃ r t, issue c s = .next (r, t) ∧
    (t.cycle = s.cycle + 1 ↔ c = .step ∧ s.live = true ∧ s.paused = false) ∧
    (c = .step → ¬(s.live = true ∧ s.paused = false) → t.cycle = s.cycle)

/-- R76: an instruction writes at most one register or the pc, never both, and never memory, CYCLE or a flag. -/
def Obligations.DispatchWritesOneRegisterOrThePc : Prop :=
  ∀ (i : Instr) (s : State), ∃ t, exec i s = .next t ∧ s.SameMem t ∧ s.SameControl t ∧
    ((t.pc = s.pc ∧ ∃ r, ∀ q, q ≠ r → t.readReg q = s.readReg q) ∨ s.SameRegs t)

/-- R13, R14, R108: only ADD, ADDI and LUI write a register, and only BNE and J write the pc in dispatch; no register,
so no link register, changes under BNE or J. -/
def Obligations.OnlyAluWritesRegistersOnlyBranchesWritePc : Prop :=
  ∀ (i : Instr) (s : State), ∃ t, exec i s = .next t ∧
    ((∃ q, t.readReg q ≠ s.readReg q) → i.mnemonic = "ADD" ∨ i.mnemonic = "ADDI" ∨ i.mnemonic = "LUI") ∧
    (t.pc ≠ s.pc → i.mnemonic = "BNE" ∨ i.mnemonic = "J")

/-- R110: the pc after a running step, by the word at the fetch address PC_instr (BNE's target: D9, log 8; the bounds
rule: D8, log 7). -/
def Obligations.PcAfterEachInstruction : Prop :=
  ∀ (s : State) (w pcInstr : Word), s.live = true → s.paused = false →
    pcInstr = (if (translateVa s.pc).toNat < 0x800000 then s.pc else 0x80000400#32) →
    State.Fetches { s with pc := pcInstr } w →
    ∃ t, step s = .next t ∧ t.pc =
      match decode w with
      | .bne rs rt offset =>
        if s.readReg rs = s.readReg rt then pcInstr + 4#32
        else BitVec.ofInt 32 (pcInstr.toNat + 4 + 4 * offset.toInt)
      | .j target => BitVec.ofNat 32 ((pcInstr + 4#32).toNat / 0x10000000 * 0x10000000 + 4 * target.toNat)
      | _ => pcInstr + 4#32

/-- R109: no delay slot. When the word fetched writes the pc, the very next step fetches and runs the word at the new
pc; the word after the branch is not run. -/
def Obligations.NoDelaySlotAfterATakenBranch : Prop :=
  ∀ (s t : State) (w w' : Word), s.Fetches w → exec (decode w) { s with pc := s.pc + 4#32 } = .next t →
    t.pc ≠ s.pc + 4#32 → t.Fetches w' →
    ∃ u, exec (decode w') { t with pc := t.pc + 4#32, cycle := s.cycle + 1 } = .next u ∧
      stepMany 2 s = .next { u with cycle := s.cycle + 2 }

/-! ### The instructions (41_alu.md to 44_system_and_unrecognized.md)

Each answers a next state for every operand and every state. Where a statement names the position of rs, rt, rd, shamt or
imm in the word, that position is decision D15 of the spec (PRESUMED, log 11). -/

/-- R90 (field positions D15): ADD is opcode 0x00, funct 0x20, and writes x[rd] with the sum modulo 2^32, both
operands read before the write; a write to register 0 is discarded; nothing else changes and nothing traps. -/
def Obligations.AddWritesTheSumModulo32Bits : Prop :=
  (∀ w : Word, w &&& 0xFC00003F#32 = 0x00000020#32 →
    decode w = .add (w.extractLsb' 21 5) (w.extractLsb' 16 5) (w.extractLsb' 11 5) (w.extractLsb' 6 5)) ∧
  ∀ (rs rt rd : RegNum) (sh : BitVec 5) (s : State), ∃ t, exec (.add rs rt rd sh) s = .next t ∧
    (∀ q, t.readReg q =
      if q = rd ∧ rd ≠ 0#5 then BitVec.ofNat 32 (((s.readReg rs).toNat + (s.readReg rt).toNat) % 2 ^ 32)
      else s.readReg q) ∧
    t.pc = s.pc ∧ s.SameMem t ∧ s.SameControl t

/-- R91 (field positions D15): ADDI is opcode 0x08 and writes x[rt] with x[rs] plus the immediate read as a two's
complement number, modulo 2^32; a write to register 0 is discarded; nothing else changes and nothing traps. -/
def Obligations.AddiAddsTheSignedImmediate : Prop :=
  (∀ w : Word, w &&& 0xFC000000#32 = 0x20000000#32 →
    decode w = .addi (w.extractLsb' 21 5) (w.extractLsb' 16 5) (w.extractLsb' 0 16)) ∧
  ∀ (rs rt : RegNum) (imm : BitVec 16) (s : State), ∃ t, exec (.addi rs rt imm) s = .next t ∧
    (∀ q, t.readReg q =
      if q = rt ∧ rt ≠ 0#5 then BitVec.ofInt 32 (((s.readReg rs).toNat : Int) + imm.toInt) else s.readReg q) ∧
    t.pc = s.pc ∧ s.SameMem t ∧ s.SameControl t

/-- R92 (field positions D15): LUI is opcode 0x0F and writes x[rt] with the immediate in bits 31:16 and zeros below,
whatever x[rt] and the rs field were; a write to register 0 is discarded; nothing else changes. -/
def Obligations.LuiPlacesTheImmediateInTheUpperHalf : Prop :=
  (∀ w : Word, w &&& 0xFC000000#32 = 0x3C000000#32 →
    decode w = .lui (w.extractLsb' 21 5) (w.extractLsb' 16 5) (w.extractLsb' 0 16)) ∧
  ∀ (rs rt : RegNum) (imm : BitVec 16) (s : State), ∃ t, exec (.lui rs rt imm) s = .next t ∧
    (∀ q, q ≠ rt ∨ rt = 0#5 → t.readReg q = s.readReg q) ∧
    (rt ≠ 0#5 → (t.readReg rt).extractLsb' 16 16 = imm ∧ (t.readReg rt).extractLsb' 0 16 = 0#16) ∧
    t.pc = s.pc ∧ s.SameMem t ∧ s.SameControl t

/-- R93: opcode 0x00 with funct 0x00 does nothing, whatever bits 25:6 are; the step is pc + 4 and CYCLE + 1. -/
def Obligations.SllAsNopDoesNothing : Prop :=
  (∀ w : Word, w &&& 0xFC00003F#32 = 0x00000000#32 → ∃ rs rt rd sh, decode w = .sllNop rs rt rd sh) ∧
  (∀ (rs rt rd : RegNum) (sh : BitVec 5) (s : State), exec (.sllNop rs rt rd sh) s = .next s) ∧
  ∀ (s : State) (w : Word), s.Fetches w → w &&& 0xFC00003F#32 = 0x00000000#32 → step s = .next s.nopStep

/-- R100 (inert: C7 and D14, log 14): LW, opcode 0x23, is recognised and inert: no register is written and no byte is
read, whatever bits 25:0 are. -/
def Obligations.LwIsInert : Prop :=
  (∀ w : Word, w &&& 0xFC000000#32 = 0x8C000000#32 → ∃ base rt offset, decode w = .lw base rt offset) ∧
  (∀ (base rt : RegNum) (offset : BitVec 16) (s : State), exec (.lw base rt offset) s = .next s) ∧
  ∀ (s : State) (w : Word), s.Fetches w → w &&& 0xFC000000#32 = 0x8C000000#32 → step s = .next s.nopStep

/-- R101 (inert: C7 and D14, log 14): SW, opcode 0x2B, is recognised and inert: no byte of memory changes, whatever
bits 25:0 are. -/
def Obligations.SwIsInert : Prop :=
  (∀ w : Word, w &&& 0xFC000000#32 = 0xAC000000#32 → ∃ base rt offset, decode w = .sw base rt offset) ∧
  (∀ (base rt : RegNum) (offset : BitVec 16) (s : State), exec (.sw base rt offset) s = .next s) ∧
  ∀ (s : State) (w : Word), s.Fetches w → w &&& 0xFC000000#32 = 0xAC000000#32 → step s = .next s.nopStep

/-- R113: any word whose primary opcode is none of the seven recognised ones is a no-operation; the step still advances
pc and counts. -/
def Obligations.UnrecognisedOpcodeIsANoOperation : Prop :=
  (∀ w : Word, w.extractLsb' 26 6 ∉ [0x00#6, 0x02#6, 0x05#6, 0x08#6, 0x0F#6, 0x23#6, 0x2B#6] →
    decode w = .unrecOpcode (w.extractLsb' 26 6) (w.extractLsb' 0 26)) ∧
  (∀ (op : BitVec 6) (rest : BitVec 26) (s : State), exec (.unrecOpcode op rest) s = .next s) ∧
  ∀ (s : State) (w : Word), s.Fetches w →
    w.extractLsb' 26 6 ∉ [0x00#6, 0x02#6, 0x05#6, 0x08#6, 0x0F#6, 0x23#6, 0x2B#6] → step s = .next s.nopStep

/-- R115 (D10, log 9): opcode 0x00 with a funct other than 0x00 and 0x20 is a no-operation. -/
def Obligations.UnrecognisedFunctIsANoOperation : Prop :=
  (∀ w : Word, w.extractLsb' 26 6 = 0x00#6 → w.extractLsb' 0 6 ≠ 0x00#6 → w.extractLsb' 0 6 ≠ 0x20#6 →
    ∃ rs rt rd sh, decode w = .unrecFunct rs rt rd sh (w.extractLsb' 0 6)) ∧
  (∀ (rs rt rd : RegNum) (sh : BitVec 5) (fn : BitVec 6) (s : State), exec (.unrecFunct rs rt rd sh fn) s = .next s) ∧
  ∀ (s : State) (w : Word), s.Fetches w → w.extractLsb' 26 6 = 0x00#6 → w.extractLsb' 0 6 ≠ 0x00#6 →
    w.extractLsb' 0 6 ≠ 0x20#6 → step s = .next s.nopStep

/-- R105 (target: D9, C1, log 8; field positions D15): BNE is opcode 0x05; where the registers differ, pc becomes
PC_next plus four times the signed offset, modulo 2^32, else pc stays; nothing else changes. -/
def Obligations.BneAddsFourTimesTheSignedOffset : Prop :=
  (∀ w : Word, w &&& 0xFC000000#32 = 0x14000000#32 →
    decode w = .bne (w.extractLsb' 21 5) (w.extractLsb' 16 5) (w.extractLsb' 0 16)) ∧
  ∀ (rs rt : RegNum) (offset : BitVec 16) (s : State), ∃ t, exec (.bne rs rt offset) s = .next t ∧
    t.pc = (if s.readReg rs = s.readReg rt then s.pc else BitVec.ofInt 32 ((s.pc.toNat : Int) + 4 * offset.toInt)) ∧
    s.SameRegs t ∧ s.SameMem t ∧ s.SameControl t

/-- R107 (the target's position is the spec's derivation of R52): J is opcode 0x02 and keeps the top 4 bits of the
advanced pc, puts the 26-bit target in bits 27:2 and zeros in bits 1:0; nothing else changes; the new pc is inside the
image exactly when bit 28 is 0 and target < 0x200000. -/
def Obligations.JumpReplacesTheLow28Bits : Prop :=
  (∀ w : Word, w &&& 0xFC000000#32 = 0x08000000#32 → decode w = .j (w.extractLsb' 0 26)) ∧
  ∀ (target : BitVec 26) (s : State), ∃ t, exec (.j target) s = .next t ∧
    t.pc.extractLsb' 28 4 = s.pc.extractLsb' 28 4 ∧ t.pc.extractLsb' 2 26 = target ∧ t.pc.extractLsb' 0 2 = 0#2 ∧
    ((translateVa t.pc).toNat < 0x800000 ↔ s.pc.extractLsb' 28 1 = 0#1 ∧ target.toNat < 0x200000) ∧
    s.SameRegs t ∧ s.SameMem t ∧ s.SameControl t

/-- R11 (as conflict C5 is resolved, log 15): register 0 reads as 0 in every state, and ADD, ADDI and LUI with
destination 0 discard the result and complete normally: pc + 4, CYCLE + 1. -/
def Obligations.RegisterZeroReadsZeroAndDiscardsWrites : Prop :=
  (∀ s : State, s.readReg 0#5 = 0#32) ∧
  (∀ (rs rt : RegNum) (sh : BitVec 5) (s : State), exec (.add rs rt 0#5 sh) s = .next s) ∧
  (∀ (rs : RegNum) (imm : BitVec 16) (s : State), exec (.addi rs 0#5 imm) s = .next s) ∧
  (∀ (rs : RegNum) (imm : BitVec 16) (s : State), exec (.lui rs 0#5 imm) s = .next s) ∧
  ∀ (s : State) (w : Word), s.Fetches w →
    ((∃ rs rt sh, decode w = .add rs rt 0#5 sh) ∨ (∃ rs imm, decode w = .addi rs 0#5 imm) ∨
      ∃ rs imm, decode w = .lui rs 0#5 imm) → step s = .next s.nopStep

/-! ### Encoding (30_encoding.md) -/

/-- Words of the spec's 95_test_vectors.md, written out from the encodings of R55 (field positions D15), decode to
their instructions. -/
def Obligations.SpecWordsDecodeToTheirInstructions : Prop :=
  decode 0x01095020#32 = .add 8#5 9#5 10#5 0#5 ∧ decode 0x2108FFFF#32 = .addi 8#5 8#5 0xFFFF#16 ∧
  decode 0x3C081234#32 = .lui 0#5 8#5 0x1234#16 ∧ decode 0x1500FFFD#32 = .bne 8#5 0#5 0xFFFD#16 ∧
  decode 0x08100000#32 = .j 0x0100000#26 ∧ decode 0x8FA90000#32 = .lw 29#5 9#5 0x0000#16 ∧
  decode 0xAFA80000#32 = .sw 29#5 8#5 0x0000#16 ∧ decode 0x00094100#32 = .sllNop 0#5 9#5 8#5 4#5 ∧
  decode 0x01095021#32 = .unrecFunct 8#5 9#5 10#5 0#5 0x21#6 ∧ decode 0xFFFFFFFF#32 = .unrecOpcode 0x3F#6 0x3FFFFFF#26

/-- R54, R55 (the fallback funct row: D10): every word decodes to the first row of the mask and match table it
selects. -/
def Obligations.DecodeFollowsTheOpcodeMap : Prop :=
  ∀ w : Word, rowMnemonic w = some (decode w).mnemonic

/-- R55: no word selects two of the eight specific rows. -/
def Obligations.SpecificRowsAreDisjoint : Prop :=
  specificRows.Pairwise fun a b => ∀ w : Word, ¬(a.selects w = true ∧ b.selects w = true)

/-- Decoding the word of a well-formed instruction gives the instruction back, every operand at every value; so does
decoding its big-endian bytes, which takes exactly four of them. -/
def Obligations.DecodeOfEncodeIsTheInstruction : Prop :=
  ∀ i : Instr, i.wf = true → decode (encode i) = i ∧
    ∀ rest, decodeBytes (wordBytes (encode i) ++ rest) = .ok (i, rest)

/-- Decoding is total (R50, R57): each of the 2^32 words decodes to a well-formed instruction. That encoding it gives
the word back rests on the model's choice to keep the ignored bits in the instruction (log 19, DESIGN CHOICE), over
the fields of 30_encoding.md section 2. -/
def Obligations.EncodeOfDecodeIsTheWord : Prop :=
  ∀ w : Word, (decode w).wf = true ∧ encode (decode w) = w

/-- R56 (shamt at 10:6 and rs at 25:21: D15, log 11): the bits a row ignores have no effect: two words of the row that
agree on the other bits dispatch alike. -/
def Obligations.IgnoredBitsHaveNoEffect : Prop :=
  ∀ (v w : Word) (s : State),
    (v &&& 0xFC00003F#32 = 0x00000020#32 → v &&& 0xFFFFF83F#32 = w &&& 0xFFFFF83F#32 →
      exec (decode v) s = exec (decode w) s) ∧
    (v &&& 0xFC00003F#32 = 0x00000000#32 → v &&& 0xFC00003F#32 = w &&& 0xFC00003F#32 →
      exec (decode v) s = exec (decode w) s) ∧
    (v &&& 0xFC000000#32 = 0x3C000000#32 → v &&& 0xFC1FFFFF#32 = w &&& 0xFC1FFFFF#32 →
      exec (decode v) s = exec (decode w) s) ∧
    (v &&& 0xFC000000#32 = 0x8C000000#32 ∨ v &&& 0xFC000000#32 = 0xAC000000#32 →
      v &&& 0xFC000000#32 = w &&& 0xFC000000#32 → exec (decode v) s = exec (decode w) s)

/-- R58 (notation: D17, log 24; BNE's target: D9, log 8): a BNE assembled for a label in its range branches to the
label, and a J assembled for an aligned label in its region jumps to it. -/
def Obligations.AssembledTransfersReachTheirLabels : Prop :=
  (∀ (rs rt : RegNum) (pcInstr label : Word) (offset : BitVec 16) (s : State),
    label = BitVec.ofInt 32 ((pcInstr.toNat : Int) + 4 + 4 * offset.toInt) → s.pc = pcInstr + 4#32 →
    s.readReg rs ≠ s.readReg rt → ∃ t, exec (Asm.bne rs rt pcInstr label) s = .next t ∧ t.pc = label) ∧
  ∀ (label : Word) (s : State), label.extractLsb' 0 2 = 0#2 → label.extractLsb' 28 4 = s.pc.extractLsb' 28 4 →
    ∃ t, exec (Asm.j label) s = .next t ∧ t.pc = label

/-- R59: LUI then ADDI loads any 32-bit constant, with the upper half one more where the lower half is negative. -/
def Obligations.LuiThenAddiLoadsAnyConstant : Prop :=
  ∀ (hi lo : BitVec 16) (r : RegNum) (s : State), r ≠ 0#5 →
    ∃ t u, exec (Asm.lui r (if lo.getLsbD 15 then hi + 1#16 else hi)) s = .next t ∧ exec (.addi r r lo) t = .next u ∧
      u.readReg r = hi ++ lo ∧ ∀ q, q ≠ r → u.readReg q = s.readReg q

/-! ### Translation and memory (20_memory.md) -/

/-- R31: the physical address is the virtual one masked with 0x1FFFFFFF, its low 29 bits, for every virtual address. -/
def Obligations.TranslateKeepsTheLow29Bits : Prop :=
  ∀ va : Word, (translateVa va).toNat = (va &&& 0x1FFFFFFF#32).toNat ∧ (translateVa va).toNat = va.toNat % 2 ^ 29

/-- R15 (pc modulo 2^32: D12, log 10): inside the image the advance never carries into the top bits of pc and never
wraps. -/
def Obligations.AdvanceNeverCarriesIntoTheTopBits : Prop :=
  ∀ pc : Word, (translateVa pc).toNat < 0x800000 →
    (pc + 4#32).toNat = pc.toNat + 4 ∧ (pc + 4#32).extractLsb' 28 4 = pc.extractLsb' 28 4

/-- R15 (D11, log 10; what is outside the image: D8, log 7): a step of an engine whose pc is inside the image keeps pc
mod 4, but for a J, which makes it 0; a recovery makes it 0. -/
def Obligations.StepKeepsPcModuloFourButForJ : Prop :=
  ∀ s : State, s.live = true → s.paused = false → ∃ t, step s = .next t ∧
    (0x800000 ≤ (translateVa s.pc).toNat → t.pc.extractLsb' 0 2 = 0#2) ∧
    ∀ w, s.Fetches w → t.pc.extractLsb' 0 2 = if w.extractLsb' 26 6 = 0x02#6 then 0#2 else s.pc.extractLsb' 0 2

/-- R35, R104: a step sees no byte of memory but the four it fetches: two engines alike but for other bytes of memory
step alike. The fetch address is the translated pc, or 0x400 where that is outside the image (R72; bounds rule D8, log
7). -/
def Obligations.StepSeesOnlyTheFetchedBytes : Prop :=
  ∀ (s : State) (m : Memory) (p : Nat),
    p = (if (translateVa s.pc).toNat < 0x800000 then (translateVa s.pc).toNat else 0x400) →
    (∀ k, k < 4 → m.read (p + k) = s.mem.read (p + k)) →
    ∃ t, step s = .next t ∧ step { s with mem := m } = .next { t with mem := m }

/-- R32: engines whose pcs name the same physical address, alike in all else, run alike for ever: after any number of
steps they agree on everything but the top three bits of pc. -/
def Obligations.AliasedPcsRunAlike : Prop :=
  ∀ (s t : State), s.Alias t → ∀ n, ∃ s' t', stepMany n s = .next s' ∧ stepMany n t = .next t' ∧ s'.Alias t'

/-- R36: no number of steps changes a byte of memory. -/
def Obligations.StepsNeverWriteMemory : Prop :=
  ∀ (n : Nat) (s : State), ∃ t, stepMany n s = .next t ∧ t.mem = s.mem ∧ s.SameMem t

/-- R145 (bounds rule: D8): an engine at the reset vector with zero memory from 0x400 up walks the NOPs to 0x80800000 in
2096896 steps, and the step after that recovers and runs the word at 0x400 again. -/
def Obligations.ZeroMemoryIdlesRoundTheResetVector : Prop :=
  ∀ s : State, s.live = true → s.paused = false → s.pc = 0x80000400#32 →
    (∀ a, 0x400 ≤ a → a < 0x800000 → s.mem.read a = 0x00#8) →
    (∀ k, k ≤ 2096896 → stepMany k s = .next { s with pc := 0x80000400#32 + BitVec.ofNat 32 (4 * k), cycle := s.cycle + k }) ∧
    stepMany 2096897 s = .next { s with pc := 0x80000404#32, cycle := s.cycle + 2096897 }

/-- R162, R163 (what LoadImage leaves: D13, log 13): after LoadImage, SetLive(1), SetPaused(0), an engine whose entry
address lies in the image's own bytes fetches the image's word there, its registers and CYCLE as they were. -/
def Obligations.BootFetchesTheImagesEntryWord : Prop :=
  ∀ (bytes : List Byte) (s : State) (entry : Word), 12 ≤ bytes.length → s.MemCanonical →
    entry = bytes.getD 8 0#8 ++ bytes.getD 9 0#8 ++ bytes.getD 10 0#8 ++ bytes.getD 11 0#8 →
    (translateVa entry).toNat + 4 ≤ bytes.length → (translateVa entry).toNat + 4 ≤ 0x800000 →
    ∃ t, issueAll [.loadImage bytes, .setLive true, .setPaused false] s = .next t ∧ t.pc = entry ∧ s.SameRegs t ∧
      t.cycle = s.cycle ∧
      t.Fetches (bytes.getD (translateVa entry).toNat 0#8 ++ bytes.getD ((translateVa entry).toNat + 1) 0#8 ++
        bytes.getD ((translateVa entry).toNat + 2) 0#8 ++ bytes.getD ((translateVa entry).toNat + 3) 0#8)

/-! ### Whole runs -/

/-- R81, R16: no instruction stops the engine: a running engine runs for ever, and CYCLE counts its steps. -/
def Obligations.RunningEngineRunsForEver : Prop :=
  ∀ s : State, s.live = true → s.paused = false → ∀ n, ∃ t, stepMany n s = .next t ∧
    t.live = true ∧ t.paused = false ∧ t.cycle = s.cycle + n

/-- R16: no instruction reads CYCLE: runs from states that differ only in CYCLE differ only in CYCLE. -/
def Obligations.NoInstructionReadsCycle : Prop :=
  ∀ (s : State) (k n : Nat), ∃ (t : State) (d : Nat), stepMany n s = .next { t with cycle := s.cycle + d } ∧
    stepMany n { s with cycle := k } = .next { t with cycle := k + d }

/-- R16, R131: as long as no Reset and no PowerOn intervenes, CYCLE never goes down over any sequence of commands, and
every such sequence completes. -/
def Obligations.CycleNeverFallsBetweenResets : Prop :=
  ∀ (cs : List Command) (s : State), (∀ c ∈ cs, c ≠ .reset ∧ ∀ m, c ≠ .powerOn m) →
    ∃ t, issueAll cs s = .next t ∧ s.cycle ≤ t.cycle

/-- What every step keeps: a canonical memory (the model's form of MEM, log 1) and an aligned pc (R15). -/
def Obligations.EveryStepKeepsTheInvariant : Prop :=
  ∀ s t : State, s.Inv → step s = .next t → t.Inv

/-- The invariant holds after power-on, and so at `State.reset`. -/
def Obligations.PowerOnMeetsTheInvariant : Prop :=
  State.reset.Inv ∧ ∀ memInit, (powerOn memInit).Inv

/-- Every sequence of commands completes and keeps memory in its canonical form, so every reachable state has it (the
model's form of MEM, log 1; R120: no command can fault). -/
def Obligations.EveryCommandSequenceKeepsMemoryCanonical : Prop :=
  (∀ (cs : List Command) (s : State), s.MemCanonical → ∃ t, issueAll cs s = .next t ∧ t.MemCanonical) ∧
  ∀ t : State, t.Reachable → t.MemCanonical

/-- Canonical memories that read alike at every address of the image are equal data: states the spec cannot tell apart
are one state of the model (R18, log 1). -/
def Obligations.StatesThatReadAlikeAreEqual : Prop :=
  ∀ s t : State, s.MemCanonical → t.MemCanonical → s.SameRegs t → t.pc = s.pc →
    (∀ a, a < 0x800000 → t.mem.read a = s.mem.read a) → s.SameControl t → t = s
end

