-- ==== Sys2Proof/Laws/Decode.lean ====
section
/-! SUPPORT. Each field read back from the three word formats, bytes and words, and the decoder on each recognised
opcode (30_encoding.md R52, R54). -/

namespace Sys2Proof

/-! ### The formats as numbers -/

/-- A concatenation as a number: the left part above the right part. -/
theorem toNat_append_add {n m : Nat} (x : BitVec n) (y : BitVec m) :
    (x ++ y).toNat = x.toNat * 2 ^ m + y.toNat := by
  rw [BitVec.toNat_append, ← Nat.shiftLeft_add_eq_or_of_lt y.isLt, Nat.shiftLeft_eq]

theorem encodeR_toNat (op : BitVec 6) (rs rt rd : RegNum) (sh : BitVec 5) (fn : BitVec 6) :
    (encodeR op rs rt rd sh fn).toNat =
      ((((op.toNat * 32 + rs.toNat) * 32 + rt.toNat) * 32 + rd.toNat) * 32 + sh.toNat) * 64 + fn.toNat := by
  refine (toNat_append_add (op ++ rs ++ rt ++ rd ++ sh) fn).trans ?_
  simp only [toNat_append_add, Nat.reducePow]

theorem encodeI_toNat (op : BitVec 6) (rs rt : RegNum) (imm : BitVec 16) :
    (encodeI op rs rt imm).toNat = ((op.toNat * 32 + rs.toNat) * 32 + rt.toNat) * 65536 + imm.toNat := by
  refine (toNat_append_add (op ++ rs ++ rt) imm).trans ?_
  simp only [toNat_append_add, Nat.reducePow]

theorem encodeJ_toNat (op : BitVec 6) (target : BitVec 26) :
    (encodeJ op target).toNat = op.toNat * 67108864 + target.toNat :=
  toNat_append_add op target

/-- The big-endian word as a number (R33). -/
theorem beWord_toNat (b0 b1 b2 b3 : Byte) :
    (beWord b0 b1 b2 b3).toNat = ((b0.toNat * 256 + b1.toNat) * 256 + b2.toNat) * 256 + b3.toNat := by
  refine (toNat_append_add (b0 ++ b1 ++ b2) b3).trans ?_
  simp only [toNat_append_add, Nat.reducePow]

/-- A field of `len` bits from bit `lo` up, as a number. -/
theorem extract_toNat {n : Nat} (w : BitVec n) (lo len : Nat) :
    (w.extractLsb' lo len).toNat = w.toNat / 2 ^ lo % 2 ^ len := by
  rw [BitVec.extractLsb'_toNat, Nat.shiftRight_eq_div_pow]

/-! ### The fields of an R-type word -/

section RFormat
variable (op : BitVec 6) (rs rt rd : RegNum) (sh : BitVec 5) (fn : BitVec 6)

theorem fieldOpcode_encodeR : fieldOpcode (encodeR op rs rt rd sh fn) = op := by
  apply BitVec.eq_of_toNat_eq; rw [fieldOpcode, extract_toNat, encodeR_toNat]; omega
theorem fieldRs_encodeR : fieldRs (encodeR op rs rt rd sh fn) = rs := by
  apply BitVec.eq_of_toNat_eq; rw [fieldRs, extract_toNat, encodeR_toNat]; omega
theorem fieldRt_encodeR : fieldRt (encodeR op rs rt rd sh fn) = rt := by
  apply BitVec.eq_of_toNat_eq; rw [fieldRt, extract_toNat, encodeR_toNat]; omega
theorem fieldRd_encodeR : fieldRd (encodeR op rs rt rd sh fn) = rd := by
  apply BitVec.eq_of_toNat_eq; rw [fieldRd, extract_toNat, encodeR_toNat]; omega
theorem fieldShamt_encodeR : fieldShamt (encodeR op rs rt rd sh fn) = sh := by
  apply BitVec.eq_of_toNat_eq; rw [fieldShamt, extract_toNat, encodeR_toNat]; omega
theorem fieldFunct_encodeR : fieldFunct (encodeR op rs rt rd sh fn) = fn := by
  apply BitVec.eq_of_toNat_eq; rw [fieldFunct, extract_toNat, encodeR_toNat]; omega

end RFormat

/-! ### The fields of an I-type word -/

section IFormat
variable (op : BitVec 6) (rs rt : RegNum) (imm : BitVec 16)

theorem fieldOpcode_encodeI : fieldOpcode (encodeI op rs rt imm) = op := by
  apply BitVec.eq_of_toNat_eq; rw [fieldOpcode, extract_toNat, encodeI_toNat]; omega
theorem fieldRs_encodeI : fieldRs (encodeI op rs rt imm) = rs := by
  apply BitVec.eq_of_toNat_eq; rw [fieldRs, extract_toNat, encodeI_toNat]; omega
theorem fieldRt_encodeI : fieldRt (encodeI op rs rt imm) = rt := by
  apply BitVec.eq_of_toNat_eq; rw [fieldRt, extract_toNat, encodeI_toNat]; omega
theorem fieldImm_encodeI : fieldImm (encodeI op rs rt imm) = imm := by
  apply BitVec.eq_of_toNat_eq; rw [fieldImm, extract_toNat, encodeI_toNat]; omega

end IFormat

/-! ### The fields of a J-type word -/

theorem fieldOpcode_encodeJ (op : BitVec 6) (target : BitVec 26) : fieldOpcode (encodeJ op target) = op := by
  apply BitVec.eq_of_toNat_eq; rw [fieldOpcode, extract_toNat, encodeJ_toNat]; omega
theorem fieldTarget_encodeJ (op : BitVec 6) (target : BitVec 26) : fieldTarget (encodeJ op target) = target := by
  apply BitVec.eq_of_toNat_eq; rw [fieldTarget, extract_toNat, encodeJ_toNat]; omega

/-! ### Bytes and words (R33) -/

/-- A word is the big-endian word of its four bytes. -/
theorem beWord_wordBytes (w : Word) :
    beWord (w.extractLsb' 24 8) (w.extractLsb' 16 8) (w.extractLsb' 8 8) (w.extractLsb' 0 8) = w := by
  apply BitVec.eq_of_toNat_eq
  rw [beWord_toNat, extract_toNat, extract_toNat, extract_toNat, extract_toNat]
  have := w.isLt
  omega

/-- Decoding the bytes of a word is decoding the word, with nothing left over. -/
theorem decodeBytes_wordBytes (w : Word) : decodeBytes (wordBytes w) = .ok (decode w, []) := by
  simp [decodeBytes, wordBytes, beWord_wordBytes]

/-- The table word is decoded as the word it is (R50). -/
theorem decodeTableWord_eq {nbits : Nat} (h : nbits ≤ 32) (w : Nat) :
    decodeTableWord nbits w = some (decode (BitVec.ofNat 32 (w % 2 ^ nbits))) := by
  simp [decodeTableWord, h, decodeBytes_wordBytes]

/-! ### The two masks of the opcode map (R55) -/

/-- What the mask 0xFC000000 keeps is the primary opcode. -/
theorem and_opcodeMask_toNat (w : Word) : (w &&& 0xFC000000#32).toNat = (fieldOpcode w).toNat * 2 ^ 26 := by
  have hmask : w &&& 0xFC000000#32 = (w >>> 26) <<< 26 := by
    apply BitVec.eq_of_getLsbD_eq
    intro i hi
    interval_cases i <;> simp
  have := w.isLt
  rw [hmask, fieldOpcode, extract_toNat, BitVec.toNat_shiftLeft, BitVec.toNat_ushiftRight, Nat.shiftLeft_eq,
    Nat.shiftRight_eq_div_pow]
  omega

/-- What the mask 0xFC00003F keeps is the primary opcode and the funct. -/
theorem and_functMask_toNat (w : Word) :
    (w &&& 0xFC00003F#32).toNat = (fieldOpcode w).toNat * 2 ^ 26 + (fieldFunct w).toNat := by
  have hmask : w &&& 0xFC00003F#32 = (w &&& 0xFC000000#32) ||| (w &&& 0x3F#32) := by
    apply BitVec.eq_of_getLsbD_eq
    intro i hi
    interval_cases i <;> simp
  have hlow : (w &&& 0x3F#32).toNat = (fieldFunct w).toNat := by
    rw [fieldFunct, extract_toNat, BitVec.toNat_and, show (0x3F#32).toNat = 2 ^ 6 - 1 from rfl,
      Nat.and_two_pow_sub_one_eq_mod]
    omega
  have hlt : (fieldFunct w).toNat < 2 ^ 26 := by
    have := (fieldFunct w).isLt
    omega
  rw [hmask, BitVec.toNat_or, and_opcodeMask_toNat, hlow, ← Nat.shiftLeft_eq, ← Nat.shiftLeft_add_eq_or_of_lt hlt]

/-! ### The decoder, opcode by opcode (R54) -/

theorem decode_special {w : Word} (h : fieldOpcode w = 0x00#6) : decode w = decodeSpecial w := by
  simp [decode, h]
theorem decode_j {w : Word} (h : fieldOpcode w = 0x02#6) : decode w = .j (fieldTarget w) := by
  simp [decode, h]
theorem decode_bne {w : Word} (h : fieldOpcode w = 0x05#6) :
    decode w = .bne (fieldRs w) (fieldRt w) (fieldImm w) := by
  simp [decode, h]
theorem decode_addi {w : Word} (h : fieldOpcode w = 0x08#6) :
    decode w = .addi (fieldRs w) (fieldRt w) (fieldImm w) := by
  simp [decode, h]
theorem decode_lui {w : Word} (h : fieldOpcode w = 0x0F#6) :
    decode w = .lui (fieldRs w) (fieldRt w) (fieldImm w) := by
  simp [decode, h]
theorem decode_lw {w : Word} (h : fieldOpcode w = 0x23#6) :
    decode w = .lw (fieldRs w) (fieldRt w) (fieldImm w) := by
  simp [decode, h]
theorem decode_sw {w : Word} (h : fieldOpcode w = 0x2B#6) :
    decode w = .sw (fieldRs w) (fieldRt w) (fieldImm w) := by
  simp [decode, h]

end Sys2Proof
end

