-- ==== Sys2Proof/Laws/Memory.lean ====
section
/-! SUPPORT. The laws of memory: read after write, the canonical form kept by every write, equal memories equal lists. -/

namespace Sys2Proof.Machine.Memory

/-- No byte is listed below the bound of a canonical memory. -/
theorem read_below {m : Memory} : ∀ {lo q : Nat}, m.wfFrom lo = true → q < lo → m.read q = unlistedByte := by
  induction m with
  | nil => intros; rfl
  | cons c rest ih =>
    obtain ⟨a, d⟩ := c
    intro lo q h hq
    simp only [wfFrom, Bool.and_eq_true, decide_eq_true_eq] at h
    have hne : q ≠ a := by omega
    have hlt : q < a + 1 := by omega
    simpa [read, hne] using ih h.2 hlt

/-- A write at `p` followed by a read of `q` (R30). -/
theorem read_write (m : Memory) (p q : Nat) (b : Byte) :
    ∀ lo, m.wfFrom lo = true → (m.write p b).read q = if q = p then b else m.read q := by
  induction m with
  | nil =>
    intro lo _
    by_cases hb : b = unlistedByte <;> simp [write, consCell, read, hb]
  | cons c rest ih =>
    obtain ⟨a, d⟩ := c
    intro lo h
    simp only [wfFrom, Bool.and_eq_true, decide_eq_true_eq] at h
    obtain ⟨⟨⟨_, _⟩, _⟩, hrest⟩ := h
    unfold write
    by_cases h1 : p < a
    · have hpa : p ≠ a := by omega
      have hpr : Memory.read rest p = unlistedByte := read_below hrest (show p < a + 1 by omega)
      by_cases hb : b = unlistedByte
      · by_cases hq : q = p
        · subst hq; simp [h1, consCell, hb, read, hpa, hpr]
        · simp [h1, consCell, hb, hq]
      · simp [h1, consCell, hb, read]
    · by_cases h2 : p = a
      · subst h2
        have hpr : Memory.read rest p = unlistedByte := read_below hrest (Nat.lt_succ_self p)
        by_cases hb : b = unlistedByte
        · by_cases hq : q = p
          · subst hq; simp [consCell, hb, hpr]
          · simp [consCell, hb, hq, read]
        · by_cases hq : q = p <;> simp [consCell, hb, read, hq]
      · simp only [h1, h2, if_false, read]
        rw [ih _ hrest]
        by_cases hq : q = a
        · have : q ≠ p := by omega
          simp [hq, Ne.symm h2]
        · simp [hq]

/-- A lower bound on a canonical memory's addresses may be lowered. -/
theorem wfFrom_mono {m : Memory} {lo lo' : Nat} (h : m.wfFrom lo = true) (hle : lo' ≤ lo) : m.wfFrom lo' = true := by
  cases m with
  | nil => rfl
  | cons c rest =>
    obtain ⟨a, d⟩ := c
    simp only [wfFrom, Bool.and_eq_true, decide_eq_true_eq] at h ⊢
    exact ⟨⟨⟨by omega, h.1.1.2⟩, h.1.2⟩, h.2⟩

/-- Putting a cell in front keeps the canonical form. -/
theorem wfFrom_consCell {m : Memory} {lo p : Nat} (b : Byte) (hp : p < Config.memSize) (hlo : lo ≤ p)
    (h : m.wfFrom (p + 1) = true) : (consCell p b m).wfFrom lo = true := by
  unfold consCell
  split
  · exact wfFrom_mono h (by omega)
  · simp [wfFrom, *]

/-- A write inside the image keeps the canonical form. -/
theorem wfFrom_write (m : Memory) (p : Nat) (b : Byte) (hp : p < Config.memSize) :
    ∀ lo, lo ≤ p → m.wfFrom lo = true → (m.write p b).wfFrom lo = true := by
  induction m with
  | nil => intro lo hlo _; exact wfFrom_consCell b hp hlo rfl
  | cons c rest ih =>
    obtain ⟨a, d⟩ := c
    intro lo hlo h
    have h' := h
    simp only [wfFrom, Bool.and_eq_true, decide_eq_true_eq] at h
    obtain ⟨⟨⟨hla, ham⟩, hd⟩, hrest⟩ := h
    unfold write
    by_cases h1 : p < a
    · simp only [h1, if_true]
      exact wfFrom_consCell b hp hlo (by simp only [wfFrom, Bool.and_eq_true, decide_eq_true_eq]; exact ⟨⟨⟨by omega, ham⟩, hd⟩, hrest⟩)
    · by_cases h2 : p = a
      · subst h2
        simp only [lt_irrefl, if_false, if_true]
        exact wfFrom_consCell b hp hlo hrest
      · simp only [h1, h2, if_false, wfFrom, Bool.and_eq_true, decide_eq_true_eq]
        exact ⟨⟨⟨hla, ham⟩, hd⟩, ih _ (by omega) hrest⟩

/-- Every write of a byte inside the image keeps `Memory.wf`. -/
theorem wf_write {m : Memory} (h : m.wf = true) {p : Nat} (hp : p < Config.memSize) (b : Byte) :
    (m.write p b).wf = true :=
  wfFrom_write m p b hp 0 (by omega) h

/-- Writing bytes that lie inside the image keeps `Memory.wf`. -/
theorem wf_writeBytes (bs : List Byte) : ∀ {m : Memory} {base : Nat}, m.wf = true →
    base + bs.length ≤ Config.memSize → (m.writeBytes base bs).wf = true := by
  induction bs with
  | nil => intro m base h _; exact h
  | cons b bs ih =>
    intro m base h hlen
    simp only [List.length_cons] at hlen
    exact ih (wf_write h (by omega) b) (by omega)

/-- What a byte reads as after bytes are written from `base` upward (R124). -/
theorem read_writeBytes (bs : List Byte) : ∀ {m : Memory} {base : Nat}, m.wf = true →
    base + bs.length ≤ Config.memSize → ∀ q,
    (m.writeBytes base bs).read q =
      if base ≤ q ∧ q < base + bs.length then bs.getD (q - base) 0#8 else m.read q := by
  induction bs with
  | nil =>
    intro m base _ _ q
    have : ¬(base ≤ q ∧ q < base + 0) := by omega
    simp only [writeBytes, List.length_nil, if_neg this]
  | cons b bs ih =>
    intro m base h hlen q
    simp only [List.length_cons] at hlen
    simp only [writeBytes, List.length_cons]
    rw [ih (wf_write h (by omega) b) (by omega), read_write m base q b 0 h]
    by_cases h1 : q = base
    · subst h1
      simp
    · by_cases h2 : base + 1 ≤ q ∧ q < base + 1 + bs.length
      · have h3 : base ≤ q ∧ q < base + (bs.length + 1) := by omega
        obtain ⟨k, rfl⟩ : ∃ k, q = base + 1 + k := ⟨q - (base + 1), by omega⟩
        rw [if_pos h2, if_pos h3]
        have e1 : base + 1 + k - (base + 1) = k := by omega
        have e2 : base + 1 + k - base = k + 1 := by omega
        simp [e1, e2]
      · have h3 : ¬(base ≤ q ∧ q < base + (bs.length + 1)) := by omega
        rw [if_neg h2, if_neg h3, if_neg h1]

/-- Canonical memories that read alike everywhere are the same list. -/
theorem ext_of_wf {m m' : Memory} {lo : Nat} (h : m.wfFrom lo = true) (h' : m'.wfFrom lo = true)
    (hr : ∀ q, m.read q = m'.read q) : m = m' := by
  induction m generalizing m' lo with
  | nil =>
    cases m' with
    | nil => rfl
    | cons c rest =>
      obtain ⟨a, d⟩ := c
      have := hr a
      simp [wfFrom] at h'
      exact absurd this.symm (by simpa [read] using h'.1.2)
  | cons c rest ih =>
    obtain ⟨a, d⟩ := c
    cases m' with
    | nil =>
      have := hr a
      simp [wfFrom] at h
      exact absurd this (by simpa [read] using h.1.2)
    | cons c' rest' =>
      obtain ⟨a', d'⟩ := c'
      have hm := h
      have hm' := h'
      simp only [wfFrom, Bool.and_eq_true, decide_eq_true_eq, bne_iff_ne, ne_eq] at h h'
      have haa : a = a' := by
        rcases Nat.lt_trichotomy a a' with hlt | heq | hgt
        · have e := hr a
          have : a ≠ a' := by omega
          rw [read, if_pos rfl, read, if_neg this, read_below h'.2 (by omega)] at e
          exact absurd e h.1.2
        · exact heq
        · have e := hr a'
          have : a' ≠ a := by omega
          rw [read, if_neg this, read, if_pos rfl, read_below h.2 (by omega)] at e
          exact absurd e.symm h'.1.2
      subst haa
      have hd : d = d' := by simpa [read] using hr a
      subst hd
      rw [ih h.2 h'.2]
      intro q
      by_cases hq : q = a
      · subst hq; rw [read_below h.2 (by omega), read_below h'.2 (by omega)]
      · simpa [read, hq] using hr q

/-- The word read succeeds exactly inside the image (R33, R73). -/
theorem readWord_isSome (m : Memory) (p : Nat) : (m.readWord p).isSome = decide (p + 4 ≤ Config.memSize) := by
  unfold readWord; split <;> simp [*]

/-- A word read depends on four bytes only (R33). -/
theorem readWord_congr {m m' : Memory} {p : Nat}
    (h : ∀ k, k < 4 → m.read (p + k) = m'.read (p + k)) : m.readWord p = m'.readWord p := by
  have h0 := h 0 (by omega)
  have h1 := h 1 (by omega)
  have h2 := h 2 (by omega)
  have h3 := h 3 (by omega)
  simp only [Nat.add_zero] at h0
  simp [readWord, h0, h1, h2, h3]

end Sys2Proof.Machine.Memory
end

