-- ==== Sys2Proof/Laws/State.lean ====
section
/-! SUPPORT. One lemma per field per update of the state, and the laws of the register file (10_state.md R10, R11). -/

namespace Sys2Proof.Machine

namespace State

/-! ### Register writes -/

@[simp] theorem writeReg_pc (s : State) (r : RegNum) (v : Word) : (s.writeReg r v).pc = s.pc := by
  unfold writeReg; split <;> rfl
@[simp] theorem writeReg_mem (s : State) (r : RegNum) (v : Word) : (s.writeReg r v).mem = s.mem := by
  unfold writeReg; split <;> rfl
@[simp] theorem writeReg_cycle (s : State) (r : RegNum) (v : Word) : (s.writeReg r v).cycle = s.cycle := by
  unfold writeReg; split <;> rfl
@[simp] theorem writeReg_live (s : State) (r : RegNum) (v : Word) : (s.writeReg r v).live = s.live := by
  unfold writeReg; split <;> rfl
@[simp] theorem writeReg_paused (s : State) (r : RegNum) (v : Word) : (s.writeReg r v).paused = s.paused := by
  unfold writeReg; split <;> rfl

/-- Register 0 reads as 0 in every state (R11). -/
@[simp] theorem readReg_zero (s : State) : s.readReg 0#5 = 0#32 := rfl

/-- A write to register 0 is discarded (R11). -/
@[simp] theorem writeReg_zero (s : State) (v : Word) : s.writeReg 0#5 v = s := rfl

/-- Registers are equal when their storage is. -/
theorem readReg_congr {s t : State} (h : s.x = t.x) (r : RegNum) : s.readReg r = t.readReg r := by
  unfold readReg; split <;> simp [h]

/-- Registers do not depend on the other fields of the state. -/
@[simp] theorem readReg_mk (s : State) (pc : Word) (mem : Memory) (cycle : Nat) (live paused : Bool) (r : RegNum) :
    State.readReg ⟨s.x, pc, mem, cycle, live, paused⟩ r = s.readReg r := rfl

/-- The storage index tells registers other than 0 apart. -/
theorem regIndex_inj {r q : RegNum} (hr : r ≠ 0#5) (hq : q ≠ 0#5) (h : r.toNat - 1 = q.toNat - 1) : r = q := by
  have hr' : r.toNat ≠ 0 := fun e => hr (BitVec.eq_of_toNat_eq (by simpa using e))
  have hq' : q.toNat ≠ 0 := fun e => hq (BitVec.eq_of_toNat_eq (by simpa using e))
  exact BitVec.eq_of_toNat_eq (by omega)

/-- A register read after a write to it gives the value written, register 0 apart. -/
theorem readReg_writeReg_same (s : State) {r : RegNum} (hr : r ≠ 0#5) (v : Word) :
    (s.writeReg r v).readReg r = v := by
  simp [readReg, writeReg, hr]

/-- A write leaves every other register alone. -/
theorem readReg_writeReg_other (s : State) {r q : RegNum} (h : q ≠ r) (v : Word) :
    (s.writeReg r v).readReg q = s.readReg q := by
  by_cases hr : r = 0#5
  · simp [hr]
  by_cases hq : q = 0#5
  · simp [hq]
  have hi : r.toNat - 1 ≠ q.toNat - 1 := fun e => h (regIndex_inj hr hq e).symm
  simp [readReg, writeReg, hr, hq, Vector.getElem_set_ne _ _ hi]

/-- What any register reads after a write, in one line (R11). -/
theorem readReg_writeReg (s : State) (r q : RegNum) (v : Word) :
    (s.writeReg r v).readReg q = if q = r ∧ r ≠ 0#5 then v else s.readReg q := by
  by_cases h : q = r
  · subst h
    by_cases hr : q = 0#5
    · simp [hr]
    · simp [hr, readReg_writeReg_same s hr v]
  · simp [h, readReg_writeReg_other s h v]

/-- Equal contents of all registers are equal register storage. -/
theorem x_ext {s t : State} (h : ∀ r, s.readReg r = t.readReg r) : s.x = t.x := by
  apply Vector.ext
  intro i hi
  have hne : BitVec.ofNat 5 (i + 1) ≠ 0#5 := by
    intro e
    have := congrArg BitVec.toNat e
    simp [BitVec.toNat_ofNat] at this
    omega
  have hidx : (i + 1) % 32 - 1 = i := by omega
  simpa [readReg, hne, hidx] using h (BitVec.ofNat 5 (i + 1))

/-- Equal storage after equal writes to equal storage. -/
theorem writeReg_x_congr {s t : State} (h : s.x = t.x) (r : RegNum) (v : Word) :
    (s.writeReg r v).x = (t.writeReg r v).x := by
  unfold writeReg; split <;> simp [h]

/-! ### pc writes -/

@[simp] theorem writePc_pc (s : State) (p : Word) : (s.writePc p).pc = p := rfl
@[simp] theorem writePc_x (s : State) (p : Word) : (s.writePc p).x = s.x := rfl
@[simp] theorem writePc_mem (s : State) (p : Word) : (s.writePc p).mem = s.mem := rfl
@[simp] theorem writePc_cycle (s : State) (p : Word) : (s.writePc p).cycle = s.cycle := rfl
@[simp] theorem writePc_live (s : State) (p : Word) : (s.writePc p).live = s.live := rfl
@[simp] theorem writePc_paused (s : State) (p : Word) : (s.writePc p).paused = s.paused := rfl
@[simp] theorem writePc_readReg (s : State) (p : Word) (r : RegNum) : (s.writePc p).readReg r = s.readReg r := rfl

@[simp] theorem advancePc_pc (s : State) : s.advancePc.pc = s.pc + 4#32 := rfl
@[simp] theorem advancePc_x (s : State) : s.advancePc.x = s.x := rfl
@[simp] theorem advancePc_mem (s : State) : s.advancePc.mem = s.mem := rfl
@[simp] theorem advancePc_cycle (s : State) : s.advancePc.cycle = s.cycle := rfl
@[simp] theorem advancePc_live (s : State) : s.advancePc.live = s.live := rfl
@[simp] theorem advancePc_paused (s : State) : s.advancePc.paused = s.paused := rfl
@[simp] theorem advancePc_readReg (s : State) (r : RegNum) : s.advancePc.readReg r = s.readReg r := rfl

/-! ### The cycle count -/

@[simp] theorem countCycle_pc (s : State) : s.countCycle.pc = s.pc := rfl
@[simp] theorem countCycle_x (s : State) : s.countCycle.x = s.x := rfl
@[simp] theorem countCycle_mem (s : State) : s.countCycle.mem = s.mem := rfl
@[simp] theorem countCycle_cycle (s : State) : s.countCycle.cycle = s.cycle + 1 := rfl
@[simp] theorem countCycle_live (s : State) : s.countCycle.live = s.live := rfl
@[simp] theorem countCycle_paused (s : State) : s.countCycle.paused = s.paused := rfl
@[simp] theorem countCycle_readReg (s : State) (r : RegNum) : s.countCycle.readReg r = s.readReg r := rfl

/-! ### The recovery of an out-of-bounds pc (R72) -/

/-- The recovery either changes nothing or writes RESET_VECTOR into pc. -/
theorem recoverPc_cases (s : State) :
    (Config.memSize ≤ s.fetchAddr ∧ s.recoverPc = s.writePc Config.resetVector) ∨
    (s.fetchAddr < Config.memSize ∧ s.recoverPc = s) := by
  by_cases h : Config.memSize ≤ s.fetchAddr
  · exact .inl ⟨h, by simp [recoverPc, fetchOutOfBounds, h]⟩
  · exact .inr ⟨by omega, by simp [recoverPc, fetchOutOfBounds, h]⟩

@[simp] theorem recoverPc_x (s : State) : s.recoverPc.x = s.x := by
  unfold recoverPc; split <;> rfl
@[simp] theorem recoverPc_mem (s : State) : s.recoverPc.mem = s.mem := by
  unfold recoverPc; split <;> rfl
@[simp] theorem recoverPc_cycle (s : State) : s.recoverPc.cycle = s.cycle := by
  unfold recoverPc; split <;> rfl
@[simp] theorem recoverPc_live (s : State) : s.recoverPc.live = s.live := by
  unfold recoverPc; split <;> rfl
@[simp] theorem recoverPc_paused (s : State) : s.recoverPc.paused = s.paused := by
  unfold recoverPc; split <;> rfl
@[simp] theorem recoverPc_readReg (s : State) (r : RegNum) : s.recoverPc.readReg r = s.readReg r := by
  unfold recoverPc; split <;> rfl

@[simp] theorem dispatchState_x (s : State) : s.dispatchState.x = s.x := by simp [dispatchState]
@[simp] theorem dispatchState_mem (s : State) : s.dispatchState.mem = s.mem := by simp [dispatchState]
@[simp] theorem dispatchState_cycle (s : State) : s.dispatchState.cycle = s.cycle := by simp [dispatchState]
@[simp] theorem dispatchState_live (s : State) : s.dispatchState.live = s.live := by simp [dispatchState]
@[simp] theorem dispatchState_paused (s : State) : s.dispatchState.paused = s.paused := by simp [dispatchState]
@[simp] theorem dispatchState_readReg (s : State) (r : RegNum) : s.dispatchState.readReg r = s.readReg r := by
  simp [dispatchState]
@[simp] theorem dispatchState_pc (s : State) : s.dispatchState.pc = s.recoverPc.pc + 4#32 := rfl

/-! ### The run state (R17) -/

/-- Running means live and not paused (R17, R70). -/
theorem running_iff (s : State) : s.running = true ↔ s.live = true ∧ s.paused = false := by
  cases hl : s.live <;> cases hp : s.paused <;> simp [running, runState, hl, hp]

/-- Whether the engine runs depends on the two bits alone. -/
theorem running_congr {s t : State} (hl : s.live = t.live) (hp : s.paused = t.paused) : s.running = t.running := by
  unfold running runState; rw [hl, hp]

end State

/-! ### The flag commands and Reset (R122, R127, R128) -/

@[simp] theorem setLive_x (b : Bool) (s : State) : (setLive b s).x = s.x := rfl
@[simp] theorem setLive_pc (b : Bool) (s : State) : (setLive b s).pc = s.pc := rfl
@[simp] theorem setLive_mem (b : Bool) (s : State) : (setLive b s).mem = s.mem := rfl
@[simp] theorem setLive_cycle (b : Bool) (s : State) : (setLive b s).cycle = s.cycle := rfl
@[simp] theorem setLive_live (b : Bool) (s : State) : (setLive b s).live = b := rfl
@[simp] theorem setLive_paused (b : Bool) (s : State) : (setLive b s).paused = s.paused := rfl
@[simp] theorem setPaused_x (b : Bool) (s : State) : (setPaused b s).x = s.x := rfl
@[simp] theorem setPaused_pc (b : Bool) (s : State) : (setPaused b s).pc = s.pc := rfl
@[simp] theorem setPaused_mem (b : Bool) (s : State) : (setPaused b s).mem = s.mem := rfl
@[simp] theorem setPaused_cycle (b : Bool) (s : State) : (setPaused b s).cycle = s.cycle := rfl
@[simp] theorem setPaused_live (b : Bool) (s : State) : (setPaused b s).live = s.live := rfl
@[simp] theorem setPaused_paused (b : Bool) (s : State) : (setPaused b s).paused = b := rfl
@[simp] theorem resetCommand_pc (s : State) : (resetCommand s).pc = Config.resetVector := rfl
@[simp] theorem resetCommand_mem (s : State) : (resetCommand s).mem = s.mem := rfl
@[simp] theorem resetCommand_cycle (s : State) : (resetCommand s).cycle = 0 := rfl
@[simp] theorem resetCommand_live (s : State) : (resetCommand s).live = false := rfl
@[simp] theorem resetCommand_paused (s : State) : (resetCommand s).paused = s.paused := rfl

/-- Every register of an all-zero file reads as 0. -/
theorem readReg_of_zero_file {s : State} (h : s.x = Vector.replicate 31 0#32) (r : RegNum) : s.readReg r = 0#32 := by
  unfold State.readReg; split <;> simp [h]

/-- `State.reset` is PowerOn with an empty listing: MEM_INIT all zero (log 1). -/
theorem powerOn_nil : powerOn [] = State.reset := rfl

end Sys2Proof.Machine
end

