-- ==== Sys2Proof/Laws/Step.lean ====
section
/-! SUPPORT. What dispatch and a step can do, said once: provers cite these instead of unfolding `exec` and `step`
(40_step_cycle.md R70 to R78). -/

namespace Sys2Proof.Machine

/-- Everything dispatch can do: write one register, write pc, or nothing (R76, R77). -/
inductive DispatchEffect : Instr → State → State → Prop where
  | add (rs rt rd : RegNum) (sh : BitVec 5) (s : State) :
      DispatchEffect (.add rs rt rd sh) s (s.writeReg rd (s.readReg rs + s.readReg rt))
  | addi (rs rt : RegNum) (imm : BitVec 16) (s : State) :
      DispatchEffect (.addi rs rt imm) s (s.writeReg rt (s.readReg rs + addiOperand imm))
  | lui (rs rt : RegNum) (imm : BitVec 16) (s : State) :
      DispatchEffect (.lui rs rt imm) s (s.writeReg rt (luiValue imm))
  | bneTaken (rs rt : RegNum) (offset : BitVec 16) (s : State) (h : differ (s.readReg rs) (s.readReg rt) = true) :
      DispatchEffect (.bne rs rt offset) s (s.writePc (branchTarget s.pc offset))
  | bneNotTaken (rs rt : RegNum) (offset : BitVec 16) (s : State) (h : differ (s.readReg rs) (s.readReg rt) = false) :
      DispatchEffect (.bne rs rt offset) s s
  | j (target : BitVec 26) (s : State) :
      DispatchEffect (.j target) s (s.writePc (jumpTarget s.pc target))
  | sllNop (rs rt rd : RegNum) (sh : BitVec 5) (s : State) : DispatchEffect (.sllNop rs rt rd sh) s s
  | lw (base rt : RegNum) (offset : BitVec 16) (s : State) : DispatchEffect (.lw base rt offset) s s
  | sw (base rt : RegNum) (offset : BitVec 16) (s : State) : DispatchEffect (.sw base rt offset) s s
  | unrecFunct (rs rt rd : RegNum) (sh : BitVec 5) (fn : BitVec 6) (s : State) :
      DispatchEffect (.unrecFunct rs rt rd sh fn) s s
  | unrecOpcode (op : BitVec 6) (rest : BitVec 26) (s : State) : DispatchEffect (.unrecOpcode op rest) s s

/-- Dispatch of any instruction in any state answers a next state, and it is one of the effects above (R76, R79). -/
theorem exec_effect (i : Instr) (s : State) : ∃ t, exec i s = .next t ∧ DispatchEffect i s t := by
  cases i with
  | add rs rt rd sh => exact ⟨_, rfl, .add ..⟩
  | sllNop rs rt rd sh => exact ⟨_, rfl, .sllNop ..⟩
  | j target => exact ⟨_, rfl, .j ..⟩
  | bne rs rt offset =>
    cases h : differ (s.readReg rs) (s.readReg rt) with
    | true => exact ⟨_, by simp [exec, execBne, h], .bneTaken rs rt offset s h⟩
    | false => exact ⟨_, by simp [exec, execBne, h], .bneNotTaken rs rt offset s h⟩
  | addi rs rt imm => exact ⟨_, rfl, .addi ..⟩
  | lui rs rt imm => exact ⟨_, rfl, .lui ..⟩
  | lw base rt offset => exact ⟨_, rfl, .lw ..⟩
  | sw base rt offset => exact ⟨_, rfl, .sw ..⟩
  | unrecFunct rs rt rd sh fn => exact ⟨_, rfl, .unrecFunct ..⟩
  | unrecOpcode op rest => exact ⟨_, rfl, .unrecOpcode ..⟩

/-- If dispatch answers `t`, then `t` is one of the effects above. -/
theorem exec_cases {i : Instr} {s t : State} (h : exec i s = .next t) : DispatchEffect i s t := by
  obtain ⟨u, hu, he⟩ := exec_effect i s
  rw [hu] at h
  cases h
  exact he

/-- No dispatch touches memory, CYCLE or the run flags (R16, R17, R36). -/
theorem DispatchEffect.frame {i : Instr} {s t : State} (h : DispatchEffect i s t) :
    t.mem = s.mem ∧ t.cycle = s.cycle ∧ t.live = s.live ∧ t.paused = s.paused := by
  cases h <;> simp

/-- A gated step changes nothing (R70). -/
theorem step_gated {s : State} (h : s.running = false) : step s = .next s := by simp [step, h]

/-- A step that is not gated dispatches the fetched instruction on the advanced state and counts one cycle
(R71 to R78). -/
theorem step_running {s : State} (h : s.running = true) :
    step s = mapNext State.countCycle (exec s.fetchedInstr s.dispatchState) := by simp [step, h]

/-- Everything a step can do (R70 to R78). -/
theorem step_cases {s t : State} (h : step s = .next t) :
    (s.running = false ∧ t = s) ∨
    (s.running = true ∧ ∃ u, DispatchEffect s.fetchedInstr s.dispatchState u ∧ t = u.countCycle) := by
  cases hr : s.running with
  | false =>
    rw [step_gated hr] at h
    cases h
    exact .inl ⟨rfl, rfl⟩
  | true =>
    obtain ⟨u, hu, he⟩ := exec_effect s.fetchedInstr s.dispatchState
    rw [step_running hr, hu] at h
    cases h
    exact .inr ⟨rfl, u, he, rfl⟩

/-- What the mapped outcome being a next state says. -/
theorem mapNext_eq_next {α β : Type} {f : α → β} {o : Host.Outcome α Fault Refusal} {b : β} :
    mapNext f o = .next b ↔ ∃ a, o = .next a ∧ f a = b := by
  cases o <;> simp [mapNext]

/-- What a chained outcome being a next state says. -/
theorem thenNext_eq_next {α β : Type} {o : Host.Outcome α Fault Refusal} {f : α → Host.Outcome β Fault Refusal} {b : β} :
    thenNext o f = .next b ↔ ∃ a, o = .next a ∧ f a = .next b := by
  cases o <;> simp [thenNext]

/-- The translated pc is the low 29 bits (R31). -/
theorem translateVa_toNat (va : Word) : (translateVa va).toNat = va.toNat % 2 ^ 29 := by
  have : (0x1FFFFFFF : Nat) = 2 ^ 29 - 1 := by decide
  simp only [translateVa, Config.physMask, BitVec.truncate_eq_setWidth, BitVec.toNat_setWidth, BitVec.toNat_and,
    BitVec.toNat_ofNat, show 536870911 % 2 ^ 32 = 2 ^ 29 - 1 from rfl, Nat.and_two_pow_sub_one_eq_mod, Nat.mod_mod]

/-- A word placed for the next fetch is the word that fetch reads (log 17). -/
theorem fetchWord_placeWord {s : State} (h : s.mem.wf = true) (w : Word) :
    (s.placeWord w).recoverPc.fetchWord = w := by
  have hreset : (translateVa Config.resetVector).toNat = 1024 := by decide
  have hsize : Config.memSize = 8388608 := rfl
  -- wherever the fetch goes, it reads at the readable pc
  have hat : (s.placeWord w).recoverPc.fetchAddr = (translateVa s.readablePc).toNat := by
    by_cases ho : Config.memSize ≤ s.fetchAddr
    · have hr : s.readablePc = Config.resetVector := by
        unfold State.readablePc; rw [if_neg (by omega)]
      have hp : (s.placeWord w).fetchAddr = s.fetchAddr := by
        simp [State.placeWord, State.fetchAddr, fetchOutOfBounds] at ho ⊢
        simp [ho]
      rcases (s.placeWord w).recoverPc_cases with ⟨_, e⟩ | ⟨hlt, _⟩
      · rw [e, hr]; rfl
      · omega
    · have hp : (s.placeWord w).pc = s.readablePc := by simp [State.placeWord, fetchOutOfBounds, ho]
      have hb : (translateVa s.readablePc).toNat < Config.memSize := by
        unfold State.readablePc
        split
        · simp only [State.fetchAddr] at ho ⊢; omega
        · omega
      rcases (s.placeWord w).recoverPc_cases with ⟨hge, _⟩ | ⟨_, e⟩
      · simp only [State.fetchAddr, hp] at hge; omega
      · rw [e, State.fetchAddr, hp]
  have hin : (translateVa s.readablePc).toNat + 4 ≤ Config.memSize := by
    unfold State.readablePc
    split
    · simpa [State.fetchAddr] using ‹_›
    · omega
  have hlen : (wordBytes w).length = 4 := rfl
  have hread : ∀ k, k < 4 → ((s.placeWord w).mem).read ((translateVa s.readablePc).toNat + k) = (wordBytes w).getD k 0#8 := by
    intro k hk
    show (s.mem.writeBytes (translateVa s.readablePc).toNat (wordBytes w)).read _ = _
    rw [Memory.read_writeBytes _ h (by omega), if_pos (by omega)]
    congr 1
    omega
  have h0 := hread 0 (by omega)
  have h1 := hread 1 (by omega)
  have h2 := hread 2 (by omega)
  have h3 := hread 3 (by omega)
  rw [Nat.add_zero] at h0
  rw [State.fetchWord, hat, State.recoverPc_mem, Memory.readWord, if_pos hin, h0, h1, h2, h3]
  exact beWord_wordBytes w

/-- The very next step after `withFetchWord` runs the table word's instruction (log 17). -/
theorem step_withFetchWord {s : State} (h : s.mem.wf = true) {nbits : Nat} (hn : nbits ≤ 32) (w : Nat) :
    ∃ i, decodeTableWord nbits w = some i ∧
      step (s.withFetchWord nbits w) = mapNext State.countCycle (exec i (s.withFetchWord nbits w).dispatchState) := by
  refine ⟨_, decodeTableWord_eq hn w, ?_⟩
  have hr : (s.withFetchWord nbits w).running = true := by
    rw [State.running_iff]; exact ⟨rfl, rfl⟩
  rw [step_running hr, State.fetchedInstr, State.withFetchWord, fetchWord_placeWord h]

/-- The memory after power-on is canonical. -/
theorem powerOn_wf (memInit : List Byte) : (powerOn memInit).mem.wf = true :=
  Memory.wf_writeBytes _ rfl (by simp [List.length_take])

/-- The reset state's memory is canonical. -/
theorem reset_wf : State.reset.mem.wf = true := rfl

/-- LoadImage keeps the canonical form. -/
theorem loadImage_wf (bytes : List Byte) {s : State} (h : s.mem.wf = true) : (loadImage bytes s).2.mem.wf = true := by
  unfold loadImage
  split
  · exact h
  · exact Memory.wf_writeBytes _ h (by simp [Config.loadBase, List.length_take])

end Sys2Proof.Machine
end

