-- ==== Sys2Proof/Laws/Commands.lean ====
section
/-! SUPPORT. What LoadImage can do, and how runs of Steps compose (45_host_commands.md R123 to R126, R129). -/

namespace Sys2Proof.Machine

/-- LoadImage either fails and leaves the state, or writes memory and pc (R123 to R126). -/
theorem loadImage_cases (bytes : List Byte) (s : State) :
    (bytes.length < 12 ∧ loadImage bytes s = (.err .truncated, s)) ∨
    (12 ≤ bytes.length ∧ loadImage bytes s =
      (.ok (entryAddress bytes),
       { s with
         mem := s.mem.writeBytes Config.loadBase (bytes.take Config.memSize)
         pc := entryAddress bytes })) := by
  by_cases h : bytes.length < 12
  · exact .inl ⟨h, by simp [loadImage, Config.minImageLen, h]⟩
  · exact .inr ⟨by omega, by simp [loadImage, Config.minImageLen, h]⟩

/-- A run of `a + b` Steps is a run of `a` and then one of `b`. -/
theorem stepMany_add (a b : Nat) : ∀ s, stepMany (a + b) s = thenNext (stepMany a s) (stepMany b) := by
  induction a with
  | zero => intro s; simp [stepMany, thenNext]
  | succ a ih =>
    intro s
    rw [Nat.succ_add]
    cases h : step s <;> simp [stepMany, h, thenNext, ih]

/-- A run of commands is its first command and then the rest. -/
theorem issueAll_append (cs ds : List Command) : ∀ s, issueAll (cs ++ ds) s = thenNext (issueAll cs s) (issueAll ds) := by
  induction cs with
  | nil => intro s; simp [issueAll, thenNext]
  | cons c cs ih =>
    intro s
    cases h : issue c s <;> simp [issueAll, h, thenNext, ih]

end Sys2Proof.Machine
end

