-- ==== Sys2Proof/Laws/Operands.lean ====
section
/-! SUPPORT. Each operand form as exact arithmetic, reduced at the end (30_encoding.md R53, 41_alu.md R94). -/

namespace Sys2Proof.Machine

/-- Sign extension keeps the two's complement value (R94). -/
theorem sext32_eq (v : BitVec 16) : sext32 v = BitVec.ofInt 32 v.toInt := rfl

/-- ADDI's sum is the exact sum modulo 2^32 (R91). -/
theorem add_addiOperand (a : Word) (imm : BitVec 16) :
    a + addiOperand imm = BitVec.ofInt 32 ((a.toNat : Int) + imm.toInt) := by
  rw [addiOperand, sext32_eq, BitVec.ofInt_add, BitVec.ofInt_natCast, BitVec.ofNat_toNat, BitVec.setWidth_eq]

/-- BNE's displacement is four times the signed offset modulo 2^32 (R94). -/
theorem branchDisplacement_eq (offset : BitVec 16) : branchDisplacement offset = BitVec.ofInt 32 (4 * offset.toInt) := by
  rw [branchDisplacement, sext32_eq, BitVec.shiftLeft_eq_mul_twoPow, BitVec.ofInt_mul, BitVec.mul_comm]
  rfl

/-- The taken-branch target is the exact sum modulo 2^32 (R105). -/
theorem branchTarget_eq (pcNext : Word) (offset : BitVec 16) :
    branchTarget pcNext offset = BitVec.ofInt 32 ((pcNext.toNat : Int) + 4 * offset.toInt) := by
  rw [branchTarget, branchDisplacement_eq, bneAdjust, BitVec.add_zero, BitVec.ofInt_add, BitVec.ofInt_natCast,
    BitVec.ofNat_toNat, BitVec.setWidth_eq]

/-- LUI's result is the immediate times 65536 (R92). -/
theorem luiValue_toNat (imm : BitVec 16) : (luiValue imm).toNat = imm.toNat * 65536 := by
  have := imm.isLt
  simp only [luiValue, BitVec.toNat_shiftLeft, BitVec.truncate_eq_setWidth, BitVec.toNat_setWidth, Nat.shiftLeft_eq]
  omega

/-- J's target as a number: the region of the advanced pc, then four times the target field (R107). -/
theorem jumpTarget_toNat (pcNext : Word) (target : BitVec 26) :
    (jumpTarget pcNext target).toNat = pcNext.toNat / 2 ^ 28 * 2 ^ 28 + target.toNat * 4 := by
  have hmask : pcNext &&& 0xF0000000#32 = (pcNext >>> 28) <<< 28 := by
    apply BitVec.eq_of_getLsbD_eq
    intro i hi
    interval_cases i <;> simp
  have ht := target.isLt
  have hp := pcNext.isLt
  have hlow : target.toNat <<< 2 < 2 ^ 28 := by rw [Nat.shiftLeft_eq]; omega
  have hhigh : pcNext.toNat >>> 28 <<< 28 < 2 ^ 32 := by
    rw [Nat.shiftLeft_eq, Nat.shiftRight_eq_div_pow]; omega
  rw [jumpTarget, hmask, BitVec.toNat_or, BitVec.toNat_shiftLeft, BitVec.toNat_shiftLeft, BitVec.toNat_ushiftRight,
    BitVec.toNat_setWidth, Nat.mod_eq_of_lt (show target.toNat < 2 ^ 32 by omega),
    Nat.mod_eq_of_lt hhigh, Nat.mod_eq_of_lt (show target.toNat <<< 2 < 2 ^ 32 by omega),
    ← Nat.shiftLeft_add_eq_or_of_lt hlow, Nat.shiftLeft_eq, Nat.shiftLeft_eq, Nat.shiftRight_eq_div_pow]

/-- BNE's condition is inequality (R94). -/
theorem differ_iff (a b : Word) : differ a b = true ↔ a ≠ b := by simp [differ]

end Sys2Proof.Machine
end

