-- ==== Sys2Proof/Laws/PerInstr.lean ====
section
/-! SUPPORT. The family EncodeSelectsRow, one lemma per constructor: the word of a well-formed instruction has the opcode
of the instruction's row, and under opcode 0x00 its funct (30_encoding.md R54, R55). -/

namespace Sys2Proof

/-- The primary opcode of an instruction's row (R54). -/
def Instr.rowOpcode : Instr → BitVec 6
  | .add .. => 0x00#6
  | .sllNop .. => 0x00#6
  | .j .. => 0x02#6
  | .bne .. => 0x05#6
  | .addi .. => 0x08#6
  | .lui .. => 0x0F#6
  | .lw .. => 0x23#6
  | .sw .. => 0x2B#6
  | .unrecFunct .. => 0x00#6
  | .unrecOpcode opcode _ => opcode

/-- The funct of an instruction's row, where its opcode is 0x00 (R54). -/
def Instr.rowFunct : Instr → Option (BitVec 6)
  | .add .. => some 0x20#6
  | .sllNop .. => some 0x00#6
  | .unrecFunct _ _ _ _ funct => some funct
  | .j .. | .bne .. | .addi .. | .lui .. | .lw .. | .sw .. | .unrecOpcode .. => none

namespace Laws.EncodeSelectsRow

/-- The encoded word carries its row's opcode, and its funct where the opcode is 0x00. -/
def Statement (i : Instr) : Prop :=
  fieldOpcode (encode i) = i.rowOpcode ∧ ∀ f, i.rowFunct = some f → fieldFunct (encode i) = f

/-- The statement for a row whose word is R-type. -/
theorem of_encodeR {i : Instr} {op : BitVec 6} {rs rt rd : RegNum} {sh : BitVec 5} {fn : BitVec 6}
    (he : encode i = encodeR op rs rt rd sh fn) (ho : i.rowOpcode = op) (hf : i.rowFunct = some fn) : Statement i := by
  refine ⟨by rw [he, ho, fieldOpcode_encodeR], fun f h => ?_⟩
  rw [he, fieldFunct_encodeR]
  exact Option.some.inj (hf.symm.trans h)

/-- The statement for a row without a funct. -/
theorem of_opcode {i : Instr} (ho : fieldOpcode (encode i) = i.rowOpcode) (hf : i.rowFunct = none) : Statement i :=
  ⟨ho, fun f h => by simp [hf] at h⟩

theorem add (rs rt rd : RegNum) (shamt : BitVec 5) : Statement (.add rs rt rd shamt) := of_encodeR rfl rfl rfl
theorem sllNop (rs rt rd : RegNum) (shamt : BitVec 5) : Statement (.sllNop rs rt rd shamt) := of_encodeR rfl rfl rfl
theorem j (target : BitVec 26) : Statement (.j target) := of_opcode (fieldOpcode_encodeJ _ _) rfl
theorem bne (rs rt : RegNum) (offset : BitVec 16) : Statement (.bne rs rt offset) :=
  of_opcode (fieldOpcode_encodeI _ _ _ _) rfl
theorem addi (rs rt : RegNum) (imm : BitVec 16) : Statement (.addi rs rt imm) :=
  of_opcode (fieldOpcode_encodeI _ _ _ _) rfl
theorem lui (rs rt : RegNum) (imm : BitVec 16) : Statement (.lui rs rt imm) :=
  of_opcode (fieldOpcode_encodeI _ _ _ _) rfl
theorem lw (base rt : RegNum) (offset : BitVec 16) : Statement (.lw base rt offset) :=
  of_opcode (fieldOpcode_encodeI _ _ _ _) rfl
theorem sw (base rt : RegNum) (offset : BitVec 16) : Statement (.sw base rt offset) :=
  of_opcode (fieldOpcode_encodeI _ _ _ _) rfl
theorem unrecFunct (rs rt rd : RegNum) (shamt : BitVec 5) (funct : BitVec 6) :
    Statement (.unrecFunct rs rt rd shamt funct) := of_encodeR rfl rfl rfl
theorem unrecOpcode (opcode : BitVec 6) (rest : BitVec 26) : Statement (.unrecOpcode opcode rest) :=
  of_opcode (fieldOpcode_encodeJ _ _) rfl

end Laws.EncodeSelectsRow

end Sys2Proof
end

