-- ==== Sys2Proof/Tests/Slice0.lean ====
section
/-! SUPPORT. The model's own tests. Expected results are those of 95_test_vectors.md (its vector is named), words written
out bit by bit from 30_encoding.md R55, and witnesses that the hypotheses of the statements can be met. -/

open Sys2Proof Sys2Proof.Machine

namespace Sys2Proof.Tests

/-- A running engine at `pc` with `w` stored there and all else as after power-on. -/
def runAt (pc w : Word) : State :=
  { State.reset with
    pc := pc
    mem := Memory.writeBytes [] (translateVa pc).toNat (wordBytes w)
    live := true }

/-- A running engine at `pc` with `w` stored at the reset vector's physical address. -/
def runStray (pc w : Word) : State :=
  { State.reset with pc := pc, mem := Memory.writeBytes [] 0x400 (wordBytes w), live := true }

/-- The next state of an outcome, the reset state where there is none. -/
def after (o : Host.Outcome State Fault Refusal) : State :=
  match o with
  | .next t => t
  | .fault _ => State.reset
  | .refused _ => State.reset

/-! ### Well-formedness: each check refuses its ill-formed term (R55) -/

theorem test_wf_refuses_unrecognised_funct_00 : (Instr.unrecFunct 0#5 0#5 0#5 0#5 0x00#6).wf = false := by decide
theorem test_wf_refuses_unrecognised_funct_20 : (Instr.unrecFunct 0#5 0#5 0#5 0#5 0x20#6).wf = false := by decide
theorem test_wf_accepts_unrecognised_funct_21 : (Instr.unrecFunct 0#5 0#5 0#5 0#5 0x21#6).wf = true := by decide
theorem test_wf_refuses_the_seven_opcodes :
    ([0x00#6, 0x02#6, 0x05#6, 0x08#6, 0x0F#6, 0x23#6, 0x2B#6].all fun o => !(Instr.unrecOpcode o 0#26).wf) = true := by
  decide
theorem test_wf_accepts_unrecognised_opcode_3F : (Instr.unrecOpcode 0x3F#6 0#26).wf = true := by decide
/-- R55's count check: 57 primary opcodes are not recognised. -/
theorem test_fifty_seven_opcodes_unrecognised :
    ((List.range 64).filter fun o => !recognisedOpcode (BitVec.ofNat 6 o)).length = 57 := by decide
/-- R55's count check: 62 funct values are not recognised. -/
theorem test_sixty_two_functs_unrecognised :
    ((List.range 64).filter fun f => !recognisedFunct (BitVec.ofNat 6 f)).length = 62 := by decide

/-! ### Decoding: words written out bit by bit from the patterns of R55 -/

theorem test_decode_add :
    decode 0b00000001000010010101000000100000#32 = .add 8#5 9#5 10#5 0#5 := by decide
/-- ADD-6: the shamt bits do not make it another instruction. -/
theorem test_decode_add_shamt_31 :
    decode 0b00000001000010010101011111100000#32 = .add 8#5 9#5 10#5 31#5 := by decide
theorem test_decode_sll_nop :
    decode 0b00000000000010010100000100000000#32 = .sllNop 0#5 9#5 8#5 4#5 := by decide
theorem test_decode_nop_word : decode 0x00000000#32 = .sllNop 0#5 0#5 0#5 0#5 := by decide
theorem test_decode_j :
    decode 0b00001000000100000000000000000000#32 = .j 0x0100000#26 := by decide
theorem test_decode_bne :
    decode 0b00010101000000001111111111111101#32 = .bne 8#5 0#5 0xFFFD#16 := by decide
theorem test_decode_addi :
    decode 0b00100001000010011000000000000001#32 = .addi 8#5 9#5 0x8001#16 := by decide
theorem test_decode_lui :
    decode 0b00111111111010000001001000110100#32 = .lui 31#5 8#5 0x1234#16 := by decide
theorem test_decode_lw :
    decode 0b10001111101010010000000000000000#32 = .lw 29#5 9#5 0#16 := by decide
theorem test_decode_sw :
    decode 0b10101111111111111111111111111111#32 = .sw 31#5 31#5 0xFFFF#16 := by decide
theorem test_decode_unrecognised_funct :
    decode 0b00000001000010010101000000100001#32 = .unrecFunct 8#5 9#5 10#5 0#5 0x21#6 := by decide
theorem test_decode_unrecognised_opcode :
    decode 0b00001100000000000000000000010100#32 = .unrecOpcode 0x03#6 0x0000014#26 := by decide
theorem test_encode_add : encode (.add 8#5 9#5 10#5 0#5) = 0x01095020#32 := by decide
theorem test_encode_sw : encode (.sw 29#5 8#5 0#16) = 0xAFA80000#32 := by decide
theorem test_decodeBytes_rejects_three_bytes : decodeBytes [0#8, 0#8, 0#8] = .error .truncatedWord := by decide
theorem test_decodeBytes_big_endian :
    decodeBytes [0x08#8, 0x12#8, 0x34#8, 0x21#8, 0xAA#8] = .ok (.j 0x0123421#26, [0xAA#8]) := by decide
theorem test_decodeTableWord_add : decodeTableWord 32 0x01095020 = some (.add 8#5 9#5 10#5 0#5) := by decide
theorem test_decodeTableWord_too_wide : decodeTableWord 40 0 = none := by decide
theorem test_row_of_syscall : rowMnemonic 0x0000000C#32 = some "NOP.UNRECOGNISED_FUNCT" := by decide

/-! ### Instructions: one step each, at most two vectors each -/

/-- ADD-1: the sum wraps. -/
theorem test_add_wraps :
    (after (step (((runAt 0x80001000#32 0x01095020#32).writeReg 8#5 0xFFFFFFFF#32).writeReg 9#5 2#32))).readReg 10#5 = 1#32 := by
  decide
/-- ADD-4: source and destination the same register. -/
theorem test_add_source_is_destination :
    (after (step ((runAt 0x80001000#32 0x01084020#32).writeReg 8#5 0x80000001#32))).readReg 8#5 = 2#32 := by decide
/-- ADDI-1. -/
theorem test_addi_minus_one :
    (after (step ((runAt 0x80001000#32 0x2108FFFF#32).writeReg 8#5 5#32))).readReg 8#5 = 4#32 := by decide
/-- ADDI-4: no trap on signed overflow. -/
theorem test_addi_overflow_wraps :
    (after (step ((runAt 0x80001000#32 0x21087FFF#32).writeReg 8#5 0x7FFFFFFF#32))).readReg 8#5 = 0x80007FFE#32 := by
  decide
/-- LUI-1. -/
theorem test_lui_clears_lower_half :
    (after (step ((runAt 0x80001000#32 0x3C081234#32).writeReg 8#5 0xFFFFFFFF#32))).readReg 8#5 = 0x12340000#32 := by
  decide
/-- LUI-5: the rs field is ignored. -/
theorem test_lui_ignores_rs :
    (after (step ((runAt 0x80001000#32 0x3FE81234#32).writeReg 31#5 7#32))).readReg 8#5 = 0x12340000#32 := by decide
/-- NOP-2: not a shift. -/
theorem test_sll_does_not_shift :
    (after (step ((runAt 0x80001000#32 0x00094100#32).writeReg 9#5 0x11#32))).readReg 8#5 = 0#32 := by decide
/-- MEM-1. -/
theorem test_lw_writes_nothing :
    (after (step (((runAt 0x80001000#32 0x8FA90000#32).writeReg 9#5 0x11111111#32).writeReg 29#5 0x80001000#32))).readReg
      9#5 = 0x11111111#32 := by decide
/-- MEM-2. -/
theorem test_sw_writes_no_memory :
    (after (step (((runAt 0x80002000#32 0xAFA80000#32).writeReg 8#5 0x12345678#32).writeReg 29#5 0x80001000#32))).mem.read
      0x1000 = 0x00#8 := by decide
/-- BNE-3: a backward branch, with no -4 adjustment. -/
theorem test_bne_backward :
    (after (step ((runAt 0x80000410#32 0x1500FFFD#32).writeReg 8#5 2#32))).pc = 0x80000408#32 := by decide
/-- BNE-10: the target wraps. -/
theorem test_bne_wraps :
    (after (step ((runAt 0x00000000#32 0x1509FFFE#32).writeReg 8#5 1#32))).pc = 0xFFFFFFFC#32 := by decide
/-- JMP-1, the source's own example. -/
theorem test_j_keeps_top_nibble : (after (step (runAt 0x80001000#32 0x08100000#32))).pc = 0x80400000#32 := by decide
/-- JMP-7: a misaligned pc is aligned by the jump. -/
theorem test_j_aligns : (after (step (runAt 0x80001002#32 0x08000105#32))).pc = 0x80000414#32 := by decide
/-- UNR-1: ADDU writes nothing. -/
theorem test_addu_writes_nothing :
    (after (step (((runAt 0x80001000#32 0x01095021#32).writeReg 8#5 1#32).writeReg 9#5 2#32))).readReg 10#5 = 0#32 := by
  decide
/-- UNR-3: JAL neither jumps nor links. -/
theorem test_jal_is_nop :
    after (step (runAt 0x80001000#32 0x0C000014#32)) = (runAt 0x80001000#32 0x0C000014#32).nopStep := by decide

/-! ### Fetch, translation, bounds -/

/-- FET-2: an alias of the same bytes, top bits kept. -/
theorem test_fetch_alias : (after (step (runAt 0xA0000010#32 0x3C081234#32))).pc = 0xA0000014#32 := by decide
/-- FET-5: a misaligned fetch is four bytes at that address. -/
theorem test_fetch_misaligned :
    (after (step { runAt 0x80000011#32 0#32 with
      mem := Memory.writeBytes [] 0x10 [0x3C#8, 0x08#8, 0x12#8, 0x34#8, 0x21#8, 0x08#8, 0x56#8, 0x78#8] })).pc
      = 0x8048D084#32 := by decide
/-- FET-7: out of bounds; recovery and the instruction at 0x400 in one step. -/
theorem test_fetch_out_of_bounds :
    (let t := after (step (runStray 0x80800000#32 0x21080001#32))
     (t.pc, t.readReg 8#5, t.cycle)) = (0x80000404#32, 1#32, 1) := by decide
/-- FET-9: a short read is the NOP word. -/
theorem test_fetch_short_read :
    (let t := after (step (runStray 0x807FFFFD#32 0x21080001#32))
     (t.pc, t.readReg 8#5, t.cycle)) = (0x80800001#32, 0#32, 1) := by decide
/-- CMD-9: a paused step consumes no cycle. -/
theorem test_paused_step :
    (after (step { runAt 0x80001000#32 0xFFFFFFFF#32 with paused := true, cycle := 7 })).cycle = 7 := by decide
theorem test_withFetchWord_runs_from_reset :
    (after (step (State.reset.withFetchWord 32 0x2008FFFF))).readReg 8#5 = 0xFFFFFFFF#32 := by decide
theorem test_withFetchWord_runs_from_a_short_read :
    (after (step ({ State.reset with pc := 0x807FFFFE#32 }.withFetchWord 32 0x2008FFFF))).readReg 8#5 = 0xFFFFFFFF#32 := by
  decide

/-- The consistency condition R5: the retranslated address is always readable. -/
theorem test_reset_vector_is_readable :
    (Config.resetVector &&& Config.physMask).toNat + 4 ≤ Config.memSize := by decide

/-! ### Memory and commands -/

theorem test_write_back_to_zero_unlists : (Memory.write [(3, 0x11#8), (5, 0x22#8)] 3 0x00#8) = [(5, 0x22#8)] := by decide
theorem test_write_keeps_order :
    (Memory.write [(3, 0x11#8), (5, 0x22#8)] 4 0x33#8) = [(3, 0x11#8), (4, 0x33#8), (5, 0x22#8)] := by decide
theorem test_wf_refuses_a_listed_zero : Memory.wf [(3, 0x00#8)] = false := by decide
theorem test_wf_refuses_falling_addresses : Memory.wf [(3, 0x01#8), (3, 0x02#8)] = false := by decide
theorem test_wf_refuses_an_address_outside : Memory.wf [(0x800000, 0x01#8)] = false := by decide

/-- The 16 bytes of CMD-1. -/
def cmd1 : List Byte := [0, 0, 0, 0, 0, 0, 0, 0, 0, 0, 4, 0, 0, 0, 0, 0]
/-- The 12 bytes of CMD-5. -/
def cmd5 : List Byte := [0, 0, 0, 0, 0, 0, 0, 0, 0x80, 0, 0, 0x10]

/-- CMD-1. -/
theorem test_loadImage_sets_pc :
    loadImage cmd1 State.reset = (.ok 0x00000400#32, { State.reset with pc := 0x00000400#32, mem := [(10, 4#8)] }) := by
  decide
/-- CMD-2. -/
theorem test_loadImage_truncated :
    loadImage [0xDE#8, 0xAD#8, 0xBE#8, 0xEF#8] State.reset = (.err .truncated, State.reset) := by decide
/-- CMD-7. -/
theorem test_reset_keeps_paused_and_memory :
    resetCommand { (runAt 0x80001234#32 0x2108FFFF#32).writeReg 8#5 5#32 with cycle := 99, paused := true } =
      { State.reset with mem := (runAt 0x80001234#32 0x2108FFFF#32).mem, paused := true } := by decide
/-- CMD-11. -/
theorem test_paused_before_live : (setLive true (setPaused true State.reset)).runState = .paused := by decide
/-- CMD-12. -/
theorem test_snapshot :
    snapshot { State.reset.writeReg 9#5 0xF#32 with pc := 0x80000414#32, cycle := 11 } =
      ⟨0x80000414#32, 0#32, 0xF#32, 0#32, 0#32, 11⟩ := by decide
theorem test_burst_steps_only_when_running :
    (HostOp.burst true 100).commands State.reset = [] ∧ (HostOp.burst true 3).commands (runAt 0#32 0#32) = [.step, .step, .step] := by
  decide
/-- P2's branch (30_encoding.md R58): assembled for its label, it is the word of the program. -/
theorem test_assembled_bne : encode (Asm.bne 8#5 0#5 0x80000410#32 0x80000408#32) = 0x1500FFFD#32 := by decide
theorem test_assembled_j : encode (Asm.j 0x80000414#32) = 0x08000105#32 := by decide
theorem test_assembled_nop : encode Asm.nop = 0x00000000#32 := by decide
theorem test_register_names :
    [Asm.regNamed "zero", Asm.regNamed "t0", Asm.regNamed "t1", Asm.regNamed "sp", Asm.regNamed "ra"]
      = [some 0, some 8, some 9, some 29, some 31] := by decide

/-! ### Witnesses: the hypotheses of the statements can be met, each clause at a boundary -/

theorem witness_PowerOnGivesEveryPowerOnValue : (0 : Nat) < [7#8].length ∧ (0 : Nat) < 0x800000 := by decide
theorem witness_LoadImageFailsExactlyBelowTwelveBytes :
    (List.replicate 11 0#8).length < 12 ∧ 12 ≤ (List.replicate 12 0#8).length := by decide
theorem witness_LoadImageCopiesTheBytesInOrder : 12 ≤ cmd5.length ∧ State.reset.MemCanonical := ⟨by decide, rfl⟩
theorem witness_LoadImageSetsPcToTheEntryAddress : (List.replicate 8 0#8).length = 8 := by decide
theorem witness_LoadRomSetsLiveOnlyOnSuccess : (List.replicate 11 0#8).length < 12 ∧ 12 ≤ cmd5.length := by decide
theorem witness_GatedStepChangesNothing_live : State.reset.live = false ∨ State.reset.paused = true := .inl rfl
theorem witness_GatedStepChangesNothing_paused :
    { runAt 0#32 0#32 with paused := true }.live = false ∨ { runAt 0#32 0#32 with paused := true }.paused = true := .inr rfl
theorem witness_StepRunsTheDecodedInstruction : (runAt 0x80000410#32 0x1500FFFD#32).Fetches 0x1500FFFD#32 :=
  ⟨by decide, by decide, by decide⟩
/-- FET-8: the last word of the image. -/
theorem witness_StepRunsTheDecodedInstruction_last : (runAt 0x807FFFFC#32 0x01095020#32).Fetches 0x01095020#32 :=
  ⟨by decide, by decide, by decide⟩
/-- FET-7 and FET-11: the first and the last physical address outside the image. -/
theorem witness_OutOfBoundsFetchRecoversInTheSameStep :
    (let s := runStray 0x80800000#32 0x21080001#32
     s.live = true ∧ s.paused = false ∧ 0x800000 ≤ (translateVa s.pc).toNat ∧
       (s.mem.read 0x400 ++ s.mem.read 0x401 ++ s.mem.read 0x402 ++ s.mem.read 0x403 : Word) = 0x21080001#32) ∧
    0x800000 ≤ (translateVa 0xFFFFFFFF#32).toNat := by decide
/-- FET-9 and FET-10: the first and the last short read. -/
theorem witness_ShortReadStepsAsNop :
    (let s := runStray 0x807FFFFD#32 0#32
     s.live = true ∧ s.paused = false ∧ (translateVa s.pc).toNat < 0x800000 ∧ 0x800000 < (translateVa s.pc).toNat + 4) ∧
    (translateVa 0x807FFFFF#32).toNat < 0x800000 ∧ 0x800000 < (translateVa 0x807FFFFF#32).toNat + 4 := by decide
theorem witness_CycleCountsExactlyTheStepsNotGated :
    (Command.step = .step ∧ ¬(State.reset.live = true ∧ State.reset.paused = false)) ∧
    (runAt 0#32 0#32).live = true ∧ (runAt 0#32 0#32).paused = false := by decide
theorem witness_OnlyAluWritesRegistersOnlyBranchesWritePc :
    (after (exec (.lui 0#5 8#5 1#16) State.reset)).readReg 8#5 ≠ State.reset.readReg 8#5 ∧
    (after (exec (.j 0#26) State.reset)).pc ≠ State.reset.pc := by decide
/-- A taken BNE in bounds. -/
theorem witness_PcAfterEachInstruction_bne :
    (let s := (runAt 0x80000410#32 0x1500FFFD#32).writeReg 8#5 2#32
     s.live = true ∧ s.paused = false ∧
       (0x80000410#32 : Word) = (if (translateVa s.pc).toNat < 0x800000 then s.pc else 0x80000400#32)) ∧
    State.Fetches { (runAt 0x80000410#32 0x1500FFFD#32).writeReg 8#5 2#32 with pc := 0x80000410#32 } 0x1500FFFD#32 ∧
    decode 0x1500FFFD#32 = .bne 8#5 0#5 0xFFFD#16 ∧
    ((runAt 0x80000410#32 0x1500FFFD#32).writeReg 8#5 2#32).readReg 8#5 ≠
      ((runAt 0x80000410#32 0x1500FFFD#32).writeReg 8#5 2#32).readReg 0#5 :=
  ⟨by decide, ⟨by decide, by decide, by decide⟩, by decide, by decide⟩
/-- A J fetched after a recovery. -/
theorem witness_PcAfterEachInstruction_recovery :
    (let s := runStray 0x8FFFFFFC#32 0x0BFFFFFF#32
     s.live = true ∧ s.paused = false ∧
       (0x80000400#32 : Word) = (if (translateVa s.pc).toNat < 0x800000 then s.pc else 0x80000400#32)) ∧
    State.Fetches { runStray 0x8FFFFFFC#32 0x0BFFFFFF#32 with pc := 0x80000400#32 } 0x0BFFFFFF#32 ∧
    decode 0x0BFFFFFF#32 = .j 0x3FFFFFF#26 :=
  ⟨by decide, ⟨by decide, by decide, by decide⟩, by decide⟩
/-- A J to 0x80000400, where another word stands. -/
theorem witness_NoDelaySlotAfterATakenBranch :
    (let s := { runAt 0x80001000#32 0x08000100#32 with
                mem := (runAt 0x80001000#32 0x08000100#32).mem.writeBytes 0x400 [0x21#8, 0x08#8, 0x00#8, 0x01#8] }
     s.Fetches 0x08000100#32 ∧
     exec (decode 0x08000100#32) { s with pc := s.pc + 4#32 } = .next { s with pc := 0x80000400#32 } ∧
     ({ s with pc := 0x80000400#32 } : State).pc ≠ s.pc + 4#32 ∧
     State.Fetches { s with pc := 0x80000400#32 } 0x21080001#32) :=
  ⟨⟨by decide, by decide, by decide⟩, rfl, by decide, ⟨by decide, by decide, by decide⟩⟩
theorem witness_masks_of_the_specific_rows :
    (0x010957E0#32 : Word) &&& 0xFC00003F#32 = 0x00000020#32 ∧ (0x2108FFFF#32 : Word) &&& 0xFC000000#32 = 0x20000000#32 ∧
    (0x3FE81234#32 : Word) &&& 0xFC000000#32 = 0x3C000000#32 ∧ (0x03FFFFC0#32 : Word) &&& 0xFC00003F#32 = 0x00000000#32 ∧
    (0x8C000003#32 : Word) &&& 0xFC000000#32 = 0x8C000000#32 ∧ (0xAFFFFFFF#32 : Word) &&& 0xFC000000#32 = 0xAC000000#32 ∧
    (0x1509FFFE#32 : Word) &&& 0xFC000000#32 = 0x14000000#32 ∧ (0x0BFFFFFF#32 : Word) &&& 0xFC000000#32 = 0x08000000#32 := by
  decide
theorem witness_AluDestinations : (10#5 : RegNum) = 10#5 ∧ (10#5 : RegNum) ≠ 0#5 ∧ (9#5 : RegNum) ≠ 10#5 := by decide
theorem witness_SllAsNopDoesNothing : (runAt 0#32 0x03FFFFC0#32).Fetches 0x03FFFFC0#32 :=
  ⟨by decide, by decide, by decide⟩
theorem witness_LwIsInert : (runAt 0#32 0x8C000003#32).Fetches 0x8C000003#32 := ⟨by decide, by decide, by decide⟩
theorem witness_SwIsInert : (runAt 0#32 0xAFFFFFFF#32).Fetches 0xAFFFFFFF#32 := ⟨by decide, by decide, by decide⟩
theorem witness_UnrecognisedOpcodeIsANoOperation :
    (runAt 0#32 0xFFFFFFFF#32).Fetches 0xFFFFFFFF#32 ∧
    (0xFFFFFFFF#32 : Word).extractLsb' 26 6 ∉ [0x00#6, 0x02#6, 0x05#6, 0x08#6, 0x0F#6, 0x23#6, 0x2B#6] ∧
    (0x04000000#32 : Word).extractLsb' 26 6 ∉ [0x00#6, 0x02#6, 0x05#6, 0x08#6, 0x0F#6, 0x23#6, 0x2B#6] :=
  ⟨⟨by decide, by decide, by decide⟩, by decide, by decide⟩
theorem witness_UnrecognisedFunctIsANoOperation :
    (runAt 0#32 0x0000003F#32).Fetches 0x0000003F#32 ∧ (0x0000003F#32 : Word).extractLsb' 26 6 = 0x00#6 ∧
    (0x0000003F#32 : Word).extractLsb' 0 6 ≠ 0x00#6 ∧ (0x0000003F#32 : Word).extractLsb' 0 6 ≠ 0x20#6 :=
  ⟨⟨by decide, by decide, by decide⟩, by decide, by decide, by decide⟩
theorem witness_BneAddsFourTimesTheSignedOffset :
    ((runAt 0#32 0#32).writeReg 8#5 2#32).readReg 8#5 ≠ ((runAt 0#32 0#32).writeReg 8#5 2#32).readReg 0#5 := by decide
/-- The largest target that lands in memory, and the smallest that does not. -/
theorem witness_JumpReplacesTheLow28Bits :
    (translateVa (jumpTarget 0x80001004#32 0x01FFFFF#26)).toNat < 0x800000 ∧
    ¬(translateVa (jumpTarget 0x80001004#32 0x0200000#26)).toNat < 0x800000 := by decide
/-- ADD-5, ADDI-6 and LUI-6. -/
theorem witness_RegisterZeroReadsZeroAndDiscardsWrites :
    (runAt 0#32 0x01090020#32).Fetches 0x01090020#32 ∧ decode 0x01090020#32 = .add 8#5 9#5 0#5 0#5 ∧
    (runAt 0#32 0x2100002A#32).Fetches 0x2100002A#32 ∧ decode 0x2100002A#32 = .addi 8#5 0#5 0x2A#16 ∧
    (runAt 0#32 0x3C001234#32).Fetches 0x3C001234#32 ∧ decode 0x3C001234#32 = .lui 0#5 0#5 0x1234#16 :=
  ⟨⟨by decide, by decide, by decide⟩, by decide, ⟨by decide, by decide, by decide⟩, by decide,
   ⟨by decide, by decide, by decide⟩, by decide⟩
theorem witness_DecodeOfEncodeIsTheInstruction :
    (Instr.add 31#5 31#5 31#5 31#5).wf = true ∧ (Instr.unrecFunct 0#5 0#5 0#5 0#5 0x3F#6).wf = true ∧
    (Instr.unrecOpcode 0x01#6 0#26).wf = true := by decide
theorem witness_IgnoredBitsHaveNoEffect :
    (0x01095020#32 &&& 0xFC00003F#32 = 0x00000020#32 ∧ 0x01095020#32 &&& 0xFFFFF83F#32 = 0x010957E0#32 &&& 0xFFFFF83F#32) ∧
    (0x00000000#32 &&& 0xFC00003F#32 = 0x00000000#32 ∧ 0x00000000#32 &&& 0xFC00003F#32 = 0x03FFFFC0#32 &&& 0xFC00003F#32) ∧
    (0x3C081234#32 &&& 0xFC000000#32 = 0x3C000000#32 ∧ 0x3C081234#32 &&& 0xFC1FFFFF#32 = 0x3FE81234#32 &&& 0xFC1FFFFF#32) ∧
    (0x8C000003#32 &&& 0xFC000000#32 = 0x8C000000#32 ∧ 0x8C000003#32 &&& 0xFC000000#32 = 0x8FA90000#32 &&& 0xFC000000#32) ∧
    (0xAFA80000#32 &&& 0xFC000000#32 = 0xAC000000#32 ∧ 0xAFA80000#32 &&& 0xFC000000#32 = 0xAFFFFFFF#32 &&& 0xFC000000#32) := by
  decide
/-- BNE-7's label, the farthest backward one, and a J to its own region. -/
theorem witness_AssembledTransfersReachTheirLabels :
    (let s := (runAt 0x80001004#32 0#32).writeReg 8#5 1#32
     0x7FFE1004#32 = BitVec.ofInt 32 (((0x80001000#32 : Word).toNat : Int) + 4 + 4 * (0x8000#16 : BitVec 16).toInt) ∧
       s.pc = 0x80001000#32 + 4#32 ∧ s.readReg 8#5 ≠ s.readReg 9#5) ∧
    (0x80000414#32 : Word).extractLsb' 0 2 = 0#2 ∧
    (0x80000414#32 : Word).extractLsb' 28 4 = (runAt 0x80001004#32 0#32).pc.extractLsb' 28 4 := by decide
theorem witness_LuiThenAddiLoadsAnyConstant : (31#5 : RegNum) ≠ 0#5 := by decide
theorem witness_AdvanceNeverCarriesIntoTheTopBits : (translateVa 0xE07FFFFF#32).toNat < 0x800000 := by decide
theorem witness_StepKeepsPcModuloFourButForJ :
    (runAt 0x80001002#32 0x08000105#32).Fetches 0x08000105#32 ∧ (runAt 0x80001002#32 0x15090004#32).Fetches 0x15090004#32 ∧
    (runStray 0x80800001#32 0#32).live = true ∧ (runStray 0x80800001#32 0#32).paused = false ∧
    0x800000 ≤ (translateVa (runStray 0x80800001#32 0#32).pc).toNat :=
  ⟨⟨by decide, by decide, by decide⟩, ⟨by decide, by decide, by decide⟩, by decide, by decide, by decide⟩
theorem witness_StepSeesOnlyTheFetchedBytes :
    0x10 = (if (translateVa (runAt 0x80000010#32 0x3C081234#32).pc).toNat < 0x800000 then
      (translateVa (runAt 0x80000010#32 0x3C081234#32).pc).toNat else 0x400) ∧
    ∀ k, k < 4 → ((runAt 0x80000010#32 0x3C081234#32).mem.write 0x14 0xFF#8).read (0x10 + k) =
      (runAt 0x80000010#32 0x3C081234#32).mem.read (0x10 + k) := by decide
/-- FET-2 and FET-3: aliases of one physical address. -/
theorem witness_AliasedPcsRunAlike : (runAt 0xA0000010#32 0x3C081234#32).Alias (runAt 0x00000010#32 0x3C081234#32) :=
  ⟨by decide, by decide, by decide, by decide, by decide, by decide⟩
theorem witness_ZeroMemoryIdlesRoundTheResetVector :
    (let s : State := { State.reset with live := true }
     s.live = true ∧ s.paused = false ∧ s.pc = 0x80000400#32 ∧ ∀ a, 0x400 ≤ a → a < 0x800000 → s.mem.read a = 0x00#8) :=
  ⟨rfl, rfl, rfl, fun _ _ _ => rfl⟩
/-- An image whose entry address is its own byte 0, read through an alias. -/
theorem witness_BootFetchesTheImagesEntryWord :
    (let bytes : List Byte := [0x21, 0x08, 0, 1, 0, 0, 0, 0, 0xA0, 0, 0, 0]
     12 ≤ bytes.length ∧ 0xA0000000#32 = bytes.getD 8 0#8 ++ bytes.getD 9 0#8 ++ bytes.getD 10 0#8 ++ bytes.getD 11 0#8 ∧
       (translateVa 0xA0000000#32).toNat + 4 ≤ bytes.length ∧ (translateVa 0xA0000000#32).toNat + 4 ≤ 0x800000) ∧
    State.reset.MemCanonical := ⟨by decide, rfl⟩
theorem witness_RunningEngineRunsForEver : (runAt 0#32 0#32).live = true ∧ (runAt 0#32 0#32).paused = false := by decide
theorem witness_CycleNeverFallsBetweenResets :
    ∀ c ∈ [Command.loadImage cmd5, .setLive true, .step], c ≠ .reset ∧ ∀ m, c ≠ .powerOn m := by simp
theorem witness_EveryStepKeepsTheInvariant :
    (runAt 0x80000410#32 0x1500FFFD#32).Inv ∧ ∃ t, step (runAt 0x80000410#32 0x1500FFFD#32) = .next t :=
  ⟨⟨rfl, rfl⟩, _, rfl⟩
theorem witness_EveryCommandSequenceKeepsMemoryCanonical :
    State.reset.MemCanonical ∧ (powerOn [7#8]).Reachable := ⟨rfl, [7#8], [], rfl⟩
theorem witness_StatesThatReadAlikeAreEqual :
    (let s := runAt 0x80000410#32 0x1500FFFD#32
     s.MemCanonical ∧ s.SameRegs s ∧ s.SameMem s ∧ s.SameControl s) :=
  ⟨rfl, fun _ => rfl, fun _ => rfl, rfl, rfl, rfl⟩

end Sys2Proof.Tests
end

section
/-! The proofs about translation and memory (20_memory.md). -/

namespace Sys2Proof.Machine

/-- The physical mask is `2 ^ 29 - 1`, so masking with it is reduction modulo `2 ^ 29` (R31). -/
theorem and_physMask_toNat (va : Word) : (va &&& Config.physMask).toNat = va.toNat % 2 ^ 29 := by
  have hmask : Config.physMask.toNat = 2 ^ 29 - 1 := rfl
  rw [BitVec.toNat_and, hmask, Nat.and_two_pow_sub_one_eq_mod]

/-- Settles O43: the masked address is below `2 ^ 29`, so dropping its top three bits loses nothing. -/
theorem translateKeepsTheLow29Bits : Obligations.TranslateKeepsTheLow29Bits := by
  intro va
  have hlow : (translateVa va).toNat = va.toNat % 2 ^ 29 := translateVa_toNat va
  exact ⟨hlow.trans (and_physMask_toNat va).symm, hlow⟩

end Sys2Proof.Machine
end

section
/-! The proofs about one step and its dispatch (40_step_cycle.md). -/

namespace Sys2Proof.Machine

/-- Dispatch makes at most one write, of a register or of the pc (R76). -/
theorem DispatchEffect.write_cases {i : Instr} {s t : State} (h : DispatchEffect i s t) :
    (∃ r v, t = s.writeReg r v) ∨ (∃ p, t = s.writePc p) ∨ t = s := by
  cases h with
  | add | addi | lui => exact .inl ⟨_, _, rfl⟩
  | bneTaken | j => exact .inr (.inl ⟨_, rfl⟩)
  | bneNotTaken | sllNop | lw | sw | unrecFunct | unrecOpcode => exact .inr (.inr rfl)

/-- Dispatch leaves every byte of memory as it reads (R36). -/
theorem DispatchEffect.sameMem {i : Instr} {s t : State} (h : DispatchEffect i s t) : s.SameMem t := by
  intro a
  rw [h.frame.1]

/-- Dispatch leaves CYCLE and the run flags alone (R16, R17). -/
theorem DispatchEffect.sameControl {i : Instr} {s t : State} (h : DispatchEffect i s t) : s.SameControl t := by
  obtain ⟨-, hcycle, hlive, hpaused⟩ := h.frame
  exact ⟨hcycle, hlive, hpaused⟩

/-- Dispatch keeps the pc and all registers but one, or keeps every register (R76). -/
theorem DispatchEffect.oneRegister_or_sameRegs {i : Instr} {s t : State} (h : DispatchEffect i s t) :
    (t.pc = s.pc ∧ ∃ r, ∀ q, q ≠ r → t.readReg q = s.readReg q) ∨ s.SameRegs t := by
  rcases h.write_cases with ⟨r, v, rfl⟩ | ⟨p, rfl⟩ | rfl
  · exact .inl ⟨s.writeReg_pc r v, r, fun q hq => s.readReg_writeReg_other hq v⟩
  · exact .inr (s.writePc_readReg p)
  · exact .inr fun _ => rfl

/-- A step of any engine, gated or not, answers a next state (R79). -/
theorem step_completes (s : State) : s.StepCompletes := by
  cases hr : s.running with
  | false => exact ⟨s, step_gated hr⟩
  | true =>
    obtain ⟨u, hu, -⟩ := exec_effect s.fetchedInstr s.dispatchState
    exact ⟨u.countCycle, by rw [step_running hr, hu, mapNext]⟩

/-- Settles O20, from the single write dispatch makes and its frame. -/
theorem dispatchWritesOneRegisterOrThePc : Obligations.DispatchWritesOneRegisterOrThePc := by
  intro i s
  obtain ⟨t, ht, he⟩ := exec_effect i s
  exact ⟨t, ht, he.sameMem, he.sameControl, he.oneRegister_or_sameRegs⟩

/-- Settles O18: a step completes, and an outcome holds one next state. -/
theorem everyStepGivesOneNextState : Obligations.EveryStepGivesOneNextState := by
  intro s
  obtain ⟨t, ht⟩ := step_completes s
  refine ⟨t, ht, fun u hu => ?_⟩
  exact Host.Outcome.next.inj (hu.symm.trans ht)

end Sys2Proof.Machine
end

section
/-! The proofs about ADD, ADDI, LUI and SLL-as-NOP (41_alu.md). -/

namespace Sys2Proof

/-! ### A row's mask keeps the fields it selects by (30_encoding.md R55) -/

/-- The mask 0xFC000000 keeps the primary opcode. -/
theorem fieldOpcode_and_opcodeMask (w : Word) : fieldOpcode (w &&& 0xFC000000#32) = fieldOpcode w := by
  apply BitVec.eq_of_toNat_eq
  have := (fieldOpcode w).isLt
  rw [fieldOpcode, extract_toNat, and_opcodeMask_toNat]
  omega

/-- The mask 0xFC00003F keeps the primary opcode. -/
theorem fieldOpcode_and_functMask (w : Word) : fieldOpcode (w &&& 0xFC00003F#32) = fieldOpcode w := by
  apply BitVec.eq_of_toNat_eq
  have := (fieldOpcode w).isLt
  have := (fieldFunct w).isLt
  rw [fieldOpcode, extract_toNat, and_functMask_toNat]
  omega

/-- The mask 0xFC00003F keeps the funct. -/
theorem fieldFunct_and_functMask (w : Word) : fieldFunct (w &&& 0xFC00003F#32) = fieldFunct w := by
  apply BitVec.eq_of_toNat_eq
  have := (fieldFunct w).isLt
  rw [fieldFunct, extract_toNat, and_functMask_toNat]
  omega

/-- A word matching `bits` under the mask 0xFC000000 has the opcode of `bits`. -/
theorem fieldOpcode_of_opcodeMask {w bits : Word} (h : w &&& 0xFC000000#32 = bits) :
    fieldOpcode w = fieldOpcode bits := by
  rw [← h, fieldOpcode_and_opcodeMask]

/-- A word matching `bits` under the mask 0xFC00003F has the opcode and the funct of `bits`. -/
theorem fields_of_functMask {w bits : Word} (h : w &&& 0xFC00003F#32 = bits) :
    fieldOpcode w = fieldOpcode bits ∧ fieldFunct w = fieldFunct bits := by
  rw [← h, fieldOpcode_and_functMask, fieldFunct_and_functMask]
  exact ⟨rfl, rfl⟩

/-! ### The decoder under opcode 0x00 (R54) -/

theorem decode_add {w : Word} (ho : fieldOpcode w = 0x00#6) (hf : fieldFunct w = 0x20#6) :
    decode w = .add (fieldRs w) (fieldRt w) (fieldRd w) (fieldShamt w) := by
  rw [decode_special ho, decodeSpecial, if_pos hf]

theorem decode_sllNop {w : Word} (ho : fieldOpcode w = 0x00#6) (hf : fieldFunct w = 0x00#6) :
    decode w = .sllNop (fieldRs w) (fieldRt w) (fieldRd w) (fieldShamt w) := by
  rw [decode_special ho, decodeSpecial, if_neg (by simp [hf]), if_pos hf]

/-- A word of SLL-as-NOP's row decodes to it (R93). -/
theorem decode_of_sllNopMask {w : Word} (h : w &&& 0xFC00003F#32 = 0x00000000#32) :
    decode w = .sllNop (fieldRs w) (fieldRt w) (fieldRd w) (fieldShamt w) := by
  obtain ⟨ho, hf⟩ := fields_of_functMask h
  exact decode_sllNop ho hf

namespace Machine

/-! ### The values the ALU instructions write -/

/-- The 32-bit sum as the exact sum reduced modulo 2^32 (R90). -/
theorem add_eq_ofNat_mod (a b : Word) : a + b = BitVec.ofNat 32 ((a.toNat + b.toNat) % 2 ^ 32) := by
  apply BitVec.eq_of_toNat_eq
  rw [BitVec.toNat_add, BitVec.toNat_ofNat, Nat.mod_mod]

/-- LUI's result holds the immediate in its upper half (R92). -/
theorem luiValue_high (imm : BitVec 16) : (luiValue imm).extractLsb' 16 16 = imm := by
  apply BitVec.eq_of_toNat_eq
  rw [extract_toNat, luiValue_toNat]
  omega

/-- LUI's result is zero in its lower half (R92). -/
theorem luiValue_low (imm : BitVec 16) : (luiValue imm).extractLsb' 0 16 = 0#16 := by
  apply BitVec.eq_of_toNat_eq
  rw [extract_toNat, luiValue_toNat, BitVec.toNat_ofNat]
  omega

/-- A register write leaves pc, memory, CYCLE and the run flags alone. -/
theorem State.writeReg_frame (s : State) (r : RegNum) (v : Word) :
    (s.writeReg r v).pc = s.pc ∧ s.SameMem (s.writeReg r v) ∧ s.SameControl (s.writeReg r v) :=
  ⟨s.writeReg_pc r v, fun a => by rw [s.writeReg_mem],
    s.writeReg_cycle r v, s.writeReg_live r v, s.writeReg_paused r v⟩

/-! ### Dispatch, instruction by instruction (R76, R90 to R93) -/

theorem exec_add (rs rt rd : RegNum) (sh : BitVec 5) (s : State) :
    exec (.add rs rt rd sh) s = .next (s.writeReg rd (s.readReg rs + s.readReg rt)) := rfl

theorem exec_addi (rs rt : RegNum) (imm : BitVec 16) (s : State) :
    exec (.addi rs rt imm) s = .next (s.writeReg rt (s.readReg rs + addiOperand imm)) := rfl

theorem exec_lui (rs rt : RegNum) (imm : BitVec 16) (s : State) :
    exec (.lui rs rt imm) s = .next (s.writeReg rt (luiValue imm)) := rfl

theorem exec_sllNop (rs rt rd : RegNum) (sh : BitVec 5) (s : State) :
    exec (.sllNop rs rt rd sh) s = .next s := rfl

/-! ### A step whose pc is inside the image (R71 to R78) -/

/-- The pc of such a step needs no recovery (R72). -/
theorem State.Fetches.recoverPc_eq {s : State} {w : Word} (h : s.Fetches w) : s.recoverPc = s := by
  have hinside : s.fetchAddr + 4 ≤ Config.memSize := h.inside
  rcases s.recoverPc_cases with ⟨hout, -⟩ | ⟨-, heq⟩
  · omega
  · exact heq

/-- The word such a step fetches (R74). -/
theorem State.Fetches.fetchWord_eq {s : State} {w : Word} (h : s.Fetches w) : s.fetchWord = w := by
  have hinside : s.fetchAddr + 4 ≤ Config.memSize := h.inside
  rw [State.fetchWord, Memory.readWord, if_pos hinside]
  exact h.word

/-- Such a step dispatches the word's instruction on the advanced state and counts one cycle. -/
theorem State.Fetches.step_eq {s : State} {w : Word} (h : s.Fetches w) :
    step s = mapNext State.countCycle (exec (decode w) s.advancePc) := by
  rw [step_running (s.running_iff.mpr h.running), State.fetchedInstr, State.dispatchState, h.recoverPc_eq,
    h.fetchWord_eq]

/-- Where dispatch does nothing, the step is pc + 4 and CYCLE + 1 (R77). -/
theorem State.Fetches.step_eq_nopStep {s : State} {w : Word} (h : s.Fetches w)
    (hexec : exec (decode w) s.advancePc = .next s.advancePc) : step s = .next s.nopStep := by
  rw [h.step_eq, hexec]
  rfl

/-! ### The obligations -/

/-- Settles O24: the row's mask fixes opcode and funct, and dispatch is one register write of the sum. -/
theorem addWritesTheSumModulo32Bits : Obligations.AddWritesTheSumModulo32Bits := by
  refine ⟨fun w h => ?_, fun rs rt rd sh s => ⟨_, exec_add rs rt rd sh s, fun q => ?_, s.writeReg_frame rd _⟩⟩
  · obtain ⟨ho, hf⟩ := fields_of_functMask h
    exact decode_add ho hf
  · rw [s.readReg_writeReg, add_eq_ofNat_mod]

/-- Settles O25: the row's mask fixes the opcode, and dispatch is one register write of the signed sum. -/
theorem addiAddsTheSignedImmediate : Obligations.AddiAddsTheSignedImmediate := by
  refine ⟨fun w h => ?_, fun rs rt imm s => ⟨_, exec_addi rs rt imm s, fun q => ?_, s.writeReg_frame rt _⟩⟩
  · exact decode_addi (fieldOpcode_of_opcodeMask h)
  · rw [s.readReg_writeReg, add_addiOperand]

/-- Settles O26: the row's mask fixes the opcode, and dispatch is one register write of the shifted immediate. -/
theorem luiPlacesTheImmediateInTheUpperHalf : Obligations.LuiPlacesTheImmediateInTheUpperHalf := by
  refine ⟨fun w h => ?_, fun rs rt imm s =>
    ⟨_, exec_lui rs rt imm s, fun q hq => ?_, fun hrt => ?_, s.writeReg_frame rt _⟩⟩
  · exact decode_lui (fieldOpcode_of_opcodeMask h)
  · rw [s.readReg_writeReg, if_neg fun ⟨heq, hne⟩ => hq.elim (· heq) hne]
  · rw [s.readReg_writeReg_same hrt]
    exact ⟨luiValue_high imm, luiValue_low imm⟩

/-- Settles O27: a word of the row decodes to SLL-as-NOP, whose dispatch leaves the advanced state as it is. -/
theorem sllAsNopDoesNothing : Obligations.SllAsNopDoesNothing := by
  refine ⟨fun w h => ⟨_, _, _, _, decode_of_sllNopMask h⟩, exec_sllNop, fun s w hfetch hmask => ?_⟩
  apply hfetch.step_eq_nopStep
  rw [decode_of_sllNopMask hmask, exec_sllNop]

end Machine

end Sys2Proof
end

section
/-! The proofs about J and the step after a transfer (43_control_transfer.md). -/

namespace Sys2Proof.Machine

/-! ### The parts of J's target (R107) -/

/-- J's target keeps the top four bits of the advanced pc. -/
theorem jumpTarget_region (pcNext : Word) (target : BitVec 26) :
    (jumpTarget pcNext target).extractLsb' 28 4 = pcNext.extractLsb' 28 4 := by
  apply BitVec.eq_of_toNat_eq
  have := target.isLt
  rw [extract_toNat, extract_toNat, jumpTarget_toNat]
  omega

/-- J's target holds the target field in bits 27:2. -/
theorem jumpTarget_field (pcNext : Word) (target : BitVec 26) :
    (jumpTarget pcNext target).extractLsb' 2 26 = target := by
  apply BitVec.eq_of_toNat_eq
  rw [extract_toNat, jumpTarget_toNat]
  omega

/-- J's target is a multiple of four. -/
theorem jumpTarget_aligned (pcNext : Word) (target : BitVec 26) :
    (jumpTarget pcNext target).extractLsb' 0 2 = 0#2 := by
  apply BitVec.eq_of_toNat_eq
  rw [extract_toNat, jumpTarget_toNat, BitVec.toNat_ofNat]
  omega

/-- The physical address of J's target: bit 28 of the advanced pc above four times the target field (R31, R107). -/
theorem translateVa_jumpTarget_toNat (pcNext : Word) (target : BitVec 26) :
    (translateVa (jumpTarget pcNext target)).toNat =
      (pcNext.extractLsb' 28 1).toNat * 2 ^ 28 + target.toNat * 4 := by
  have := target.isLt
  rw [translateVa_toNat, jumpTarget_toNat, extract_toNat]
  omega

/-- J lands inside the image exactly when bit 28 of the advanced pc is 0 and the target field is below 0x200000. -/
theorem jumpTarget_inside_iff (pcNext : Word) (target : BitVec 26) :
    (translateVa (jumpTarget pcNext target)).toNat < 0x800000 ↔
      pcNext.extractLsb' 28 1 = 0#1 ∧ target.toNat < 0x200000 := by
  have hbit : pcNext.extractLsb' 28 1 = 0#1 ↔ (pcNext.extractLsb' 28 1).toNat = 0 := BitVec.toNat_inj.symm
  rw [translateVa_jumpTarget_toNat, hbit]
  omega

/-! ### Dispatch of J and its frame -/

theorem exec_j (target : BitVec 26) (s : State) :
    exec (.j target) s = .next (s.writePc (jumpTarget s.pc target)) := rfl

/-- A pc write leaves registers, memory, CYCLE and the run flags alone. -/
theorem State.writePc_frame (s : State) (p : Word) :
    s.SameRegs (s.writePc p) ∧ s.SameMem (s.writePc p) ∧ s.SameControl (s.writePc p) :=
  ⟨s.writePc_readReg p, fun a => by rw [s.writePc_mem], s.writePc_cycle p, s.writePc_live p, s.writePc_paused p⟩

/-! ### Two steps in a row -/

/-- What the next step fetches does not depend on CYCLE (R16, R74). -/
theorem State.Fetches.countCycle {s : State} {w : Word} (h : s.Fetches w) : s.countCycle.Fetches w :=
  ⟨h.running, h.inside, h.word⟩

/-- Where dispatch answers `t`, the step answers `t` with one cycle counted (R78). -/
theorem State.Fetches.step_eq_countCycle {s t : State} {w : Word} (h : s.Fetches w)
    (hexec : exec (decode w) s.advancePc = .next t) : step s = .next t.countCycle := by
  rw [h.step_eq, hexec, mapNext]

/-- Two steps that answer one after the other are a run of two. -/
theorem stepMany_two {s t u : State} (hs : step s = .next t) (ht : step t = .next u) : stepMany 2 s = .next u := by
  simp only [stepMany, hs, ht, thenNext]

/-! ### The obligations -/

/-- Settles O23: the first step ends at the new pc with one cycle counted, and the second fetches there. -/
theorem noDelaySlotAfterATakenBranch : Obligations.NoDelaySlotAfterATakenBranch := by
  intro s t w w' hfetch hexec _ hfetch'
  have hfirst : step s = .next t.countCycle := hfetch.step_eq_countCycle hexec
  have htcycle : t.cycle = s.cycle := (exec_cases hexec).sameControl.cycle
  obtain ⟨u, hu, heffect⟩ := exec_effect (decode w') t.countCycle.advancePc
  have hsecond : step t.countCycle = .next u.countCycle := hfetch'.countCycle.step_eq_countCycle hu
  have hucycle : u.cycle = s.cycle + 1 := by
    rw [heffect.sameControl.cycle, State.advancePc_cycle, State.countCycle_cycle, htcycle]
  refine ⟨u, ?_, ?_⟩
  · rw [← htcycle]
    exact hu
  · rw [stepMany_two hfirst hsecond, State.countCycle, hucycle]

/-- Settles O33: the row's mask fixes the opcode, and dispatch is one pc write of the jump target. -/
theorem jumpReplacesTheLow28Bits : Obligations.JumpReplacesTheLow28Bits := by
  refine ⟨fun w h => ?_, fun target s => ⟨_, exec_j target s, jumpTarget_region s.pc target,
    jumpTarget_field s.pc target, jumpTarget_aligned s.pc target, jumpTarget_inside_iff s.pc target,
    s.writePc_frame _⟩⟩
  exact decode_j (fieldOpcode_of_opcodeMask h)

end Sys2Proof.Machine
end

section
/-! The proofs about an unrecognised primary opcode (44_system_and_unrecognized.md). -/

namespace Sys2Proof

/-- A word whose opcode no arm of the dispatch table names decodes to the fallback row (R54, R113). -/
theorem decode_unrecOpcode {w : Word}
    (h : fieldOpcode w ∉ [0x00#6, 0x02#6, 0x05#6, 0x08#6, 0x0F#6, 0x23#6, 0x2B#6]) :
    decode w = .unrecOpcode (fieldOpcode w) (fieldTarget w) := by
  simp only [List.mem_cons, List.not_mem_nil, or_false, not_or] at h
  obtain ⟨hspecial, hj, hbne, haddi, hlui, hlw, hsw⟩ := h
  rw [decode, if_neg hspecial, if_neg hj, if_neg hbne, if_neg haddi, if_neg hlui, if_neg hlw, if_neg hsw]

namespace Machine

/-- Dispatch of an unrecognised opcode leaves the state as it is (R113). -/
theorem exec_unrecOpcode (op : BitVec 6) (rest : BitVec 26) (s : State) :
    exec (.unrecOpcode op rest) s = .next s := rfl

/-- Settles O30: the word falls through every arm of the decoder, and dispatch leaves the advanced state as it is. -/
theorem unrecognisedOpcodeIsANoOperation : Obligations.UnrecognisedOpcodeIsANoOperation := by
  refine ⟨fun w h => decode_unrecOpcode h, exec_unrecOpcode, fun s w hfetch hopcode => ?_⟩
  apply hfetch.step_eq_nopStep
  rw [decode_unrecOpcode hopcode, exec_unrecOpcode]

end Machine

end Sys2Proof
end

section
/-! The proofs about LoadImage's entry address (45_host_commands.md R125). -/

namespace Sys2Proof.Machine

/-- An image long enough is loaded: memory and pc are written, and the entry address is the result (R124, R125). -/
theorem loadImage_ok {bytes : List Byte} (hlen : 12 ≤ bytes.length) (s : State) :
    loadImage bytes s =
      (.ok (entryAddress bytes),
       { s with
         mem := s.mem.writeBytes Config.loadBase (bytes.take Config.memSize)
         pc := entryAddress bytes }) := by
  rcases loadImage_cases bytes s with ⟨hshort, -⟩ | ⟨-, heq⟩
  · omega
  · exact heq

/-- Below the image's end a loaded byte is the input byte at its address (R124). -/
theorem loadImage_read {bytes : List Byte} (hlen : 12 ≤ bytes.length) {s : State} (h : s.MemCanonical)
    {a : Nat} (ha : a < bytes.length) (hin : a < Config.memSize) :
    (loadImage bytes s).2.mem.read a = bytes.getD a 0x00#8 := by
  have hfits : Config.loadBase + (bytes.take Config.memSize).length ≤ Config.memSize := by
    simp [Config.loadBase, List.length_take]
  have hrange : Config.loadBase ≤ a ∧ a < Config.loadBase + (bytes.take Config.memSize).length := by
    simp [Config.loadBase, List.length_take, ha, hin]
  rw [loadImage_ok hlen, Memory.read_writeBytes _ h hfits, if_pos hrange, Config.loadBase, Nat.sub_zero,
    List.getD_eq_getElem?_getD, List.getElem?_take_of_lt hin, List.getD_eq_getElem?_getD]

/-- The entry address is the four bytes behind the first eight, the first of them highest (R125). -/
theorem entryAddress_append {head : List Byte} (hhead : head.length = 8) (b0 b1 b2 b3 : Byte) (rest : List Byte) :
    entryAddress (head ++ [b0, b1, b2, b3] ++ rest) = b0 ++ b1 ++ b2 ++ b3 := by
  have hbyte : ∀ k, (head ++ [b0, b1, b2, b3] ++ rest).getD (8 + k) 0#8 = ([b0, b1, b2, b3] ++ rest).getD k 0#8 := by
    intro k
    rw [List.append_assoc, List.getD_append_right _ _ _ _ (by omega), hhead, Nat.add_sub_cancel_left]
  rw [entryAddress, Config.entryOffset, hbyte 0, hbyte 1, hbyte 2, hbyte 3]
  rfl

/-- Settles O6: the input is long enough, so the load succeeds with the entry address at byte 8 and copies from 0. -/
theorem loadImageSetsPcToTheEntryAddress : Obligations.LoadImageSetsPcToTheEntryAddress := by
  intro head rest b0 b1 b2 b3 s hhead
  have hlen : 12 ≤ (head ++ [b0, b1, b2, b3] ++ rest).length := by
    simp only [List.length_append, List.length_cons, hhead]
    omega
  have hentry := entryAddress_append hhead b0 b1 b2 b3 rest
  refine ⟨(loadImage (head ++ [b0, b1, b2, b3] ++ rest) s).2, ?_, ?_, fun hmem a ha => ?_⟩
  · rw [issue, loadImage_ok hlen, hentry]
  · rw [loadImage_ok hlen, hentry]
  · have hin : a < Config.memSize := by
      rw [Config.memSize]
      omega
    exact loadImage_read hlen hmem (by omega) hin

end Sys2Proof.Machine
end

section
/-! The proofs about the encoding: decoder and encoder undo each other, the opcode map, ignored bits
(30_encoding.md). -/

namespace Sys2Proof

/-! ### What the decoder answers (R54) -/

theorem decode_unrecFunct {w : Word} (ho : fieldOpcode w = 0x00#6) (hadd : fieldFunct w ≠ 0x20#6)
    (hsll : fieldFunct w ≠ 0x00#6) :
    decode w = .unrecFunct (fieldRs w) (fieldRt w) (fieldRd w) (fieldShamt w) (fieldFunct w) := by
  rw [decode_special ho, decodeSpecial, if_neg hadd, if_neg hsll]

/-- The rows of the opcode map: which instruction a word is, and the fields that make it so (R54, R55). -/
inductive DecodesTo (w : Word) : Instr → Prop where
  | add (ho : fieldOpcode w = 0x00#6) (hf : fieldFunct w = 0x20#6) :
      DecodesTo w (.add (fieldRs w) (fieldRt w) (fieldRd w) (fieldShamt w))
  | sllNop (ho : fieldOpcode w = 0x00#6) (hf : fieldFunct w = 0x00#6) :
      DecodesTo w (.sllNop (fieldRs w) (fieldRt w) (fieldRd w) (fieldShamt w))
  | unrecFunct (ho : fieldOpcode w = 0x00#6) (hadd : fieldFunct w ≠ 0x20#6) (hsll : fieldFunct w ≠ 0x00#6) :
      DecodesTo w (.unrecFunct (fieldRs w) (fieldRt w) (fieldRd w) (fieldShamt w) (fieldFunct w))
  | j (ho : fieldOpcode w = 0x02#6) : DecodesTo w (.j (fieldTarget w))
  | bne (ho : fieldOpcode w = 0x05#6) : DecodesTo w (.bne (fieldRs w) (fieldRt w) (fieldImm w))
  | addi (ho : fieldOpcode w = 0x08#6) : DecodesTo w (.addi (fieldRs w) (fieldRt w) (fieldImm w))
  | lui (ho : fieldOpcode w = 0x0F#6) : DecodesTo w (.lui (fieldRs w) (fieldRt w) (fieldImm w))
  | lw (ho : fieldOpcode w = 0x23#6) : DecodesTo w (.lw (fieldRs w) (fieldRt w) (fieldImm w))
  | sw (ho : fieldOpcode w = 0x2B#6) : DecodesTo w (.sw (fieldRs w) (fieldRt w) (fieldImm w))
  | unrecOpcode (ho : recognisedOpcode (fieldOpcode w) = false) :
      DecodesTo w (.unrecOpcode (fieldOpcode w) (fieldTarget w))

/-- The decoder answers by the rows above, for every word. -/
theorem decodesTo_decode (w : Word) : DecodesTo w (decode w) := by
  unfold decode decodeSpecial
  split_ifs with hspecial hadd hsll hj hbne haddi hlui hlw hsw
  · exact .add hspecial hadd
  · exact .sllNop hspecial hsll
  · exact .unrecFunct hspecial hadd hsll
  · exact .j hj
  · exact .bne hbne
  · exact .addi haddi
  · exact .lui hlui
  · exact .lw hlw
  · exact .sw hsw
  · exact .unrecOpcode (by simp [recognisedOpcode, hspecial, hj, hbne, haddi, hlui, hlw, hsw])

/-! ### A word is made of its fields (R52) -/

theorem encodeR_fields (w : Word) :
    encodeR (fieldOpcode w) (fieldRs w) (fieldRt w) (fieldRd w) (fieldShamt w) (fieldFunct w) = w := by
  apply BitVec.eq_of_toNat_eq
  have := w.isLt
  rw [encodeR_toNat, fieldOpcode, fieldRs, fieldRt, fieldRd, fieldShamt, fieldFunct]
  simp only [extract_toNat]
  omega

theorem encodeI_fields (w : Word) : encodeI (fieldOpcode w) (fieldRs w) (fieldRt w) (fieldImm w) = w := by
  apply BitVec.eq_of_toNat_eq
  have := w.isLt
  rw [encodeI_toNat, fieldOpcode, fieldRs, fieldRt, fieldImm]
  simp only [extract_toNat]
  omega

theorem encodeJ_fields (w : Word) : encodeJ (fieldOpcode w) (fieldTarget w) = w := by
  apply BitVec.eq_of_toNat_eq
  have := w.isLt
  rw [encodeJ_toNat, fieldOpcode, fieldTarget]
  simp only [extract_toNat]
  omega

/-! ### Decoder and encoder undo each other -/

/-- The encoder puts a word together from the fields the decoder took apart. -/
theorem DecodesTo.encode_eq {w : Word} {i : Instr} (h : DecodesTo w i) : encode i = w := by
  cases h with
  | add ho hf | sllNop ho hf => simpa only [encode, ho, hf] using encodeR_fields w
  | unrecFunct ho => rw [encode, ← ho, encodeR_fields]
  | bne ho | addi ho | lui ho | lw ho | sw ho => rw [encode, ← ho, encodeI_fields]
  | j ho => rw [encode, ← ho, encodeJ_fields]
  | unrecOpcode => rw [encode, encodeJ_fields]

/-- A decoded instruction is well formed: the fallback rows are reached only past the specific ones (R55). -/
theorem DecodesTo.wf {w : Word} {i : Instr} (h : DecodesTo w i) : i.wf = true := by
  cases h with
  | unrecFunct _ hadd hsll => simp [Instr.wf, recognisedFunct, hadd, hsll]
  | unrecOpcode ho => simp [Instr.wf, ho]
  | add | sllNop | j | bne | addi | lui | lw | sw => rfl

/-- The opcode of a well-formed instruction of the fallback opcode row is none of the seven recognised ones (R113). -/
theorem not_mem_of_wf_unrecOpcode {opcode : BitVec 6} {rest : BitVec 26}
    (h : (Instr.unrecOpcode opcode rest).wf = true) :
    opcode ∉ [0x00#6, 0x02#6, 0x05#6, 0x08#6, 0x0F#6, 0x23#6, 0x2B#6] := by
  simpa [Instr.wf, recognisedOpcode, and_assoc] using h

/-- Decoding the word of a well-formed instruction gives the instruction back. -/
theorem decode_encode {i : Instr} (h : i.wf = true) : decode (encode i) = i := by
  cases i with
  | add rs rt rd sh =>
    rw [encode, decode_add (fieldOpcode_encodeR ..) (fieldFunct_encodeR ..), fieldRs_encodeR, fieldRt_encodeR,
      fieldRd_encodeR, fieldShamt_encodeR]
  | sllNop rs rt rd sh =>
    rw [encode, decode_sllNop (fieldOpcode_encodeR ..) (fieldFunct_encodeR ..), fieldRs_encodeR, fieldRt_encodeR,
      fieldRd_encodeR, fieldShamt_encodeR]
  | unrecFunct rs rt rd sh fn =>
    obtain ⟨hadd, hsll⟩ : fn ≠ 0x20#6 ∧ fn ≠ 0x00#6 := by simpa [Instr.wf, recognisedFunct] using h
    rw [encode, decode_unrecFunct (fieldOpcode_encodeR ..) (by rwa [fieldFunct_encodeR]) (by rwa [fieldFunct_encodeR]),
      fieldRs_encodeR, fieldRt_encodeR, fieldRd_encodeR, fieldShamt_encodeR, fieldFunct_encodeR]
  | j target => rw [encode, decode_j (fieldOpcode_encodeJ ..), fieldTarget_encodeJ]
  | bne rs rt offset =>
    rw [encode, decode_bne (fieldOpcode_encodeI ..), fieldRs_encodeI, fieldRt_encodeI, fieldImm_encodeI]
  | addi rs rt imm =>
    rw [encode, decode_addi (fieldOpcode_encodeI ..), fieldRs_encodeI, fieldRt_encodeI, fieldImm_encodeI]
  | lui rs rt imm =>
    rw [encode, decode_lui (fieldOpcode_encodeI ..), fieldRs_encodeI, fieldRt_encodeI, fieldImm_encodeI]
  | lw base rt offset =>
    rw [encode, decode_lw (fieldOpcode_encodeI ..), fieldRs_encodeI, fieldRt_encodeI, fieldImm_encodeI]
  | sw base rt offset =>
    rw [encode, decode_sw (fieldOpcode_encodeI ..), fieldRs_encodeI, fieldRt_encodeI, fieldImm_encodeI]
  | unrecOpcode opcode rest =>
    rw [encode, decode_unrecOpcode (by rw [fieldOpcode_encodeJ]; exact not_mem_of_wf_unrecOpcode h),
      fieldOpcode_encodeJ, fieldTarget_encodeJ]

/-- The bytes of a word decode to the word's instruction, whatever follows them (R33, R50). -/
theorem decodeBytes_wordBytes_append (w : Word) (rest : List Byte) :
    decodeBytes (wordBytes w ++ rest) = .ok (decode w, rest) := by
  rw [wordBytes, List.cons_append, List.cons_append, List.cons_append, List.cons_append, List.nil_append, decodeBytes,
    beWord_wordBytes]

/-- Settles O38, row by row: the decoder reads back each field the encoder placed. -/
theorem decodeOfEncodeIsTheInstruction : Obligations.DecodeOfEncodeIsTheInstruction := by
  intro i h
  refine ⟨decode_encode h, fun rest => ?_⟩
  rw [decodeBytes_wordBytes_append, decode_encode h]

/-- Settles O39: the row a word decodes by keeps all of the word's fields. -/
theorem encodeOfDecodeIsTheWord : Obligations.EncodeOfDecodeIsTheWord := fun w =>
  ⟨(decodesTo_decode w).wf, (decodesTo_decode w).encode_eq⟩

/-! ### The mask and match table (R55) -/

/-- A row with the mask 0xFC000000 is selected by the words of its opcode. -/
theorem selects_opcodeMask (name : String) (op : BitVec 6) (w : Word) :
    OpcodeRow.selects ⟨name, 0xFC000000#32, encodeJ op 0#26⟩ w = decide (fieldOpcode w = op) := by
  rw [OpcodeRow.selects, Bool.eq_iff_iff, beq_iff_eq, decide_eq_true_iff, ← BitVec.toNat_inj, ← BitVec.toNat_inj,
    and_opcodeMask_toNat, encodeJ_toNat, BitVec.toNat_ofNat]
  omega

/-- A row with the mask 0xFC00003F is selected by the words of its opcode and funct. -/
theorem selects_functMask (name : String) (op fn : BitVec 6) (w : Word) :
    OpcodeRow.selects ⟨name, 0xFC00003F#32, encodeR op 0#5 0#5 0#5 0#5 fn⟩ w =
      decide (fieldOpcode w = op ∧ fieldFunct w = fn) := by
  have := (fieldFunct w).isLt
  have := fn.isLt
  rw [OpcodeRow.selects, Bool.eq_iff_iff, beq_iff_eq, decide_eq_true_iff, ← BitVec.toNat_inj, ← BitVec.toNat_inj,
    ← BitVec.toNat_inj, and_functMask_toNat, encodeR_toNat, BitVec.toNat_ofNat]
  omega

/-- A row with an empty mask is selected by every word. -/
theorem selects_emptyMask (name : String) (w : Word) : OpcodeRow.selects ⟨name, 0#32, 0#32⟩ w = true := by
  simp [OpcodeRow.selects]

/-- The table's rows with their bits as the words of an opcode and a funct. -/
theorem rows_eq : specificRows ++ fallbackRows =
    [⟨"ADD", 0xFC00003F#32, encodeR 0x00#6 0#5 0#5 0#5 0#5 0x20#6⟩,
     ⟨"SLL-as-NOP", 0xFC00003F#32, encodeR 0x00#6 0#5 0#5 0#5 0#5 0x00#6⟩,
     ⟨"J", 0xFC000000#32, encodeJ 0x02#6 0#26⟩,
     ⟨"BNE", 0xFC000000#32, encodeJ 0x05#6 0#26⟩,
     ⟨"ADDI", 0xFC000000#32, encodeJ 0x08#6 0#26⟩,
     ⟨"LUI", 0xFC000000#32, encodeJ 0x0F#6 0#26⟩,
     ⟨"LW", 0xFC000000#32, encodeJ 0x23#6 0#26⟩,
     ⟨"SW", 0xFC000000#32, encodeJ 0x2B#6 0#26⟩,
     ⟨"NOP.UNRECOGNISED_FUNCT", 0xFC000000#32, encodeJ 0x00#6 0#26⟩,
     ⟨"NOP.UNRECOGNISED_OPCODE", 0#32, 0#32⟩] := by
  decide

/-- The row the decoder takes is the first one the word selects. -/
theorem DecodesTo.rowMnemonic_eq {w : Word} {i : Instr} (h : DecodesTo w i) : rowMnemonic w = some i.mnemonic := by
  simp only [rowMnemonic, rows_eq, List.find?_cons, selects_functMask, selects_opcodeMask, selects_emptyMask]
  cases h with
  | add ho hf | sllNop ho hf => simp [ho, hf, Instr.mnemonic]
  | unrecFunct ho hadd hsll => simp [ho, hadd, hsll, Instr.mnemonic]
  | j ho | bne ho | addi ho | lui ho | lw ho | sw ho => simp [ho, Instr.mnemonic]
  | unrecOpcode ho =>
    simp only [recognisedOpcode, Bool.or_eq_false_iff, beq_eq_false_iff_ne] at ho
    simp [ho, Instr.mnemonic]

/-- Settles O36: each row of the decoder is the table's first selected row. -/
theorem decodeFollowsTheOpcodeMap : Obligations.DecodeFollowsTheOpcodeMap := fun w =>
  (decodesTo_decode w).rowMnemonic_eq

/-- Two rows that one word selects have the same bits where both masks look. -/
theorem OpcodeRow.bits_agree_of_selects {a b : OpcodeRow} {w : Word} (ha : a.selects w = true)
    (hb : b.selects w = true) : a.bits &&& b.mask = b.bits &&& a.mask := by
  rw [OpcodeRow.selects, beq_iff_eq] at ha hb
  rw [← ha, ← hb, BitVec.and_assoc, BitVec.and_assoc, BitVec.and_comm a.mask]

/-- Settles O37: any two specific rows differ in a bit that both masks keep. -/
theorem specificRowsAreDisjoint : Obligations.SpecificRowsAreDisjoint := by
  have hdiffer : specificRows.Pairwise fun a b => a.bits &&& b.mask ≠ b.bits &&& a.mask := by decide
  exact hdiffer.imp fun hne w ⟨ha, hb⟩ => hne (OpcodeRow.bits_agree_of_selects ha hb)

/-- Settles O35: the decoder run on each of the ten words. -/
theorem specWordsDecodeToTheirInstructions : Obligations.SpecWordsDecodeToTheirInstructions := by
  unfold Obligations.SpecWordsDecodeToTheirInstructions
  decide

/-! ### Bits a row ignores (R56) -/

/-- Words that agree under a mask have the same field wherever the mask keeps the whole field. -/
theorem extract_eq_of_and_eq {v w m : Word} (h : v &&& m = w &&& m) {lo len : Nat}
    (hm : m.extractLsb' lo len = BitVec.allOnes len) : v.extractLsb' lo len = w.extractLsb' lo len := by
  have hfield := congrArg (BitVec.extractLsb' lo len) h
  rwa [BitVec.extractLsb'_and, BitVec.extractLsb'_and, hm, BitVec.and_allOnes, BitVec.and_allOnes] at hfield

namespace Machine

/-! ### Dispatch of LW and SW (R100, R101), and what dispatch of ADD and LUI reads -/

theorem exec_lw (base rt : RegNum) (offset : BitVec 16) (s : State) : exec (.lw base rt offset) s = .next s := rfl
theorem exec_sw (base rt : RegNum) (offset : BitVec 16) (s : State) : exec (.sw base rt offset) s = .next s := rfl

/-- Dispatch of ADD reads rs, rt and rd only. -/
theorem exec_add_congr {v w : Word} (ho : fieldOpcode v = 0x00#6) (hf : fieldFunct v = 0x20#6)
    (h : v &&& 0xFFFFF83F#32 = w &&& 0xFFFFF83F#32) (s : State) : exec (decode v) s = exec (decode w) s := by
  have hop : fieldOpcode v = fieldOpcode w := extract_eq_of_and_eq h (by decide)
  have hfn : fieldFunct v = fieldFunct w := extract_eq_of_and_eq h (by decide)
  have hrs : fieldRs v = fieldRs w := extract_eq_of_and_eq h (by decide)
  have hrt : fieldRt v = fieldRt w := extract_eq_of_and_eq h (by decide)
  have hrd : fieldRd v = fieldRd w := extract_eq_of_and_eq h (by decide)
  rw [decode_add ho hf, decode_add (hop ▸ ho) (hfn ▸ hf), exec_add, exec_add, hrs, hrt, hrd]

/-- Dispatch of LUI reads rt and imm only. -/
theorem exec_lui_congr {v w : Word} (ho : fieldOpcode v = 0x0F#6)
    (h : v &&& 0xFC1FFFFF#32 = w &&& 0xFC1FFFFF#32) (s : State) : exec (decode v) s = exec (decode w) s := by
  have hop : fieldOpcode v = fieldOpcode w := extract_eq_of_and_eq h (by decide)
  have hrt : fieldRt v = fieldRt w := extract_eq_of_and_eq h (by decide)
  have himm : fieldImm v = fieldImm w := extract_eq_of_and_eq h (by decide)
  rw [decode_lui ho, decode_lui (hop ▸ ho), exec_lui, exec_lui, hrt, himm]

/-- Settles O40: the kept bits fix the row and the fields its dispatch reads. -/
theorem ignoredBitsHaveNoEffect : Obligations.IgnoredBitsHaveNoEffect := by
  intro v w s
  refine ⟨fun hv h => ?_, fun hv h => ?_, fun hv h => ?_, fun hv h => ?_⟩
  · obtain ⟨ho, hf⟩ := fields_of_functMask hv
    exact exec_add_congr ho hf h s
  · rw [decode_of_sllNopMask hv, decode_of_sllNopMask (h.symm.trans hv), exec_sllNop, exec_sllNop]
  · exact exec_lui_congr (fieldOpcode_of_opcodeMask hv) h s
  · rcases hv with hv | hv
    · rw [decode_lw (fieldOpcode_of_opcodeMask hv), decode_lw (fieldOpcode_of_opcodeMask (h.symm.trans hv)), exec_lw,
        exec_lw]
    · rw [decode_sw (fieldOpcode_of_opcodeMask hv), decode_sw (fieldOpcode_of_opcodeMask (h.symm.trans hv)), exec_sw,
        exec_sw]

end Machine

end Sys2Proof
end

section
/-! The proofs about what dispatch writes and where it leaves the pc (40_step_cycle.md, 43_control_transfer.md). -/

namespace Sys2Proof.Machine

/-! ### Which instructions write a register, which the pc (R13, R14, R76) -/

/-- The pc dispatch leaves: a BNE's and a J's target, else the pc it was given (R105, R107, R110). -/
def State.dispatchPc (s : State) : Instr → Word
  | .bne rs rt offset => if s.readReg rs = s.readReg rt then s.pc else branchTarget s.pc offset
  | .j target => jumpTarget s.pc target
  | _ => s.pc

theorem DispatchEffect.pc_eq {i : Instr} {s t : State} (h : DispatchEffect i s t) : t.pc = s.dispatchPc i := by
  cases h with
  | add | addi | lui => exact s.writeReg_pc _ _
  | bneTaken rs rt offset _ hne => exact (if_neg ((differ_iff _ _).mp hne)).symm
  | bneNotTaken rs rt offset _ heq =>
    have : s.readReg rs = s.readReg rt := by simpa [differ] using heq
    exact (if_pos this).symm
  | j | sllNop | lw | sw | unrecFunct | unrecOpcode => rfl

/-- Registers change under ADD, ADDI and LUI only (R13). -/
theorem DispatchEffect.alu_or_sameRegs {i : Instr} {s t : State} (h : DispatchEffect i s t) :
    (i.mnemonic = "ADD" ∨ i.mnemonic = "ADDI" ∨ i.mnemonic = "LUI") ∨ s.SameRegs t := by
  cases h with
  | add => exact .inl (.inl rfl)
  | addi => exact .inl (.inr (.inl rfl))
  | lui => exact .inl (.inr (.inr rfl))
  | bneTaken | j => exact .inr (s.writePc_readReg _)
  | bneNotTaken | sllNop | lw | sw | unrecFunct | unrecOpcode => exact .inr fun _ => rfl

/-- The pc changes under BNE and J only (R14). -/
theorem DispatchEffect.transfer_or_pc_eq {i : Instr} {s t : State} (h : DispatchEffect i s t) :
    (i.mnemonic = "BNE" ∨ i.mnemonic = "J") ∨ t.pc = s.pc := by
  rw [h.pc_eq]
  cases i with
  | bne => exact .inl (.inl rfl)
  | j => exact .inl (.inr rfl)
  | add | sllNop | addi | lui | lw | sw | unrecFunct | unrecOpcode => exact .inr rfl

/-- Settles O21: what is not an ALU instruction keeps the registers, what is not a transfer keeps the pc. -/
theorem onlyAluWritesRegistersOnlyBranchesWritePc : Obligations.OnlyAluWritesRegistersOnlyBranchesWritePc := by
  intro i s
  obtain ⟨t, ht, he⟩ := exec_effect i s
  refine ⟨t, ht, fun ⟨q, hq⟩ => ?_, fun hpc => ?_⟩
  · exact he.alu_or_sameRegs.resolve_right fun hsame => hq (hsame q)
  · exact he.transfer_or_pc_eq.resolve_right hpc

/-! ### BNE and J: targets and labels (R58, R105, R107) -/

/-- Settles O32: the row's mask fixes the opcode, and dispatch writes the pc at most. -/
theorem bneAddsFourTimesTheSignedOffset : Obligations.BneAddsFourTimesTheSignedOffset := by
  refine ⟨fun w h => decode_bne (fieldOpcode_of_opcodeMask h), fun rs rt offset s => ?_⟩
  obtain ⟨t, ht, he⟩ := exec_effect (.bne rs rt offset) s
  refine ⟨t, ht, ?_, he.alu_or_sameRegs.resolve_left (by simp [Instr.mnemonic]), he.sameMem, he.sameControl⟩
  rw [he.pc_eq, State.dispatchPc, branchTarget_eq]

/-- The taken-branch target counted from the branch's own address (R105, D9). -/
theorem branchTarget_add_four (pcInstr : Word) (offset : BitVec 16) :
    branchTarget (pcInstr + 4#32) offset = BitVec.ofInt 32 ((pcInstr.toNat : Int) + 4 + 4 * offset.toInt) := by
  rw [branchTarget, branchDisplacement_eq, bneAdjust, BitVec.add_zero, BitVec.ofInt_add, BitVec.ofInt_add,
    BitVec.ofInt_natCast, BitVec.ofNat_toNat, BitVec.setWidth_eq]
  rfl

/-- The displacement holds the offset in bits 17:2. -/
theorem branchDisplacement_field (offset : BitVec 16) : (branchDisplacement offset).extractLsb' 2 16 = offset := by
  apply BitVec.eq_of_getLsbD_eq
  intro i hi
  have hin : 2 + i < 32 := by omega
  have habove : ¬2 + i ≤ 1 := by omega
  simp [branchDisplacement, sext32, BitVec.getElem_signExtend, hi, hin, habove]

/-- A BNE assembled for the target of an offset carries that offset (R58). -/
theorem asm_bne_branchTarget (rs rt : RegNum) (pcInstr : Word) (offset : BitVec 16) :
    Asm.bne rs rt pcInstr (branchTarget (pcInstr + 4#32) offset) = .bne rs rt offset := by
  have hdist : branchTarget (pcInstr + 4#32) offset - (pcInstr + 4#32) = branchDisplacement offset := by
    rw [branchTarget, bneAdjust, BitVec.add_zero, add_sub_cancel_left]
  rw [Asm.bne, hdist, branchDisplacement_field]

/-- An aligned label in the region of the advanced pc is the target of the J assembled for it (R58, R107). -/
theorem jumpTarget_label {label pcNext : Word} (haligned : label.extractLsb' 0 2 = 0#2)
    (hregion : label.extractLsb' 28 4 = pcNext.extractLsb' 28 4) :
    jumpTarget pcNext (label.extractLsb' 2 26) = label := by
  have hlow := congrArg BitVec.toNat haligned
  have hhigh := congrArg BitVec.toNat hregion
  simp only [extract_toNat, BitVec.toNat_ofNat] at hlow hhigh
  apply BitVec.eq_of_toNat_eq
  have := label.isLt
  have := pcNext.isLt
  rw [jumpTarget_toNat, extract_toNat]
  omega

/-- Settles O41: each label is the target of the instruction assembled for it. -/
theorem assembledTransfersReachTheirLabels : Obligations.AssembledTransfersReachTheirLabels := by
  refine ⟨fun rs rt pcInstr label offset s hlabel hpc hne => ?_, fun label s haligned hregion => ?_⟩
  · rw [← branchTarget_add_four] at hlabel
    subst hlabel
    rw [asm_bne_branchTarget]
    obtain ⟨t, ht, he⟩ := exec_effect (.bne rs rt offset) s
    exact ⟨t, ht, by rw [he.pc_eq, State.dispatchPc, if_neg hne, hpc]⟩
  · exact ⟨_, exec_j _ s, jumpTarget_label haligned hregion⟩

/-! ### The advance (R15, R75) -/

/-- Settles O44: below 0x800000 the low 29 bits have room for 4 more. -/
theorem advanceNeverCarriesIntoTheTopBits : Obligations.AdvanceNeverCarriesIntoTheTopBits := by
  intro pc hin
  rw [translateVa_toNat] at hin
  have hlt := pc.isLt
  have hsum : (pc + 4#32).toNat = pc.toNat + 4 := by
    rw [BitVec.toNat_add, BitVec.toNat_ofNat]
    omega
  refine ⟨hsum, BitVec.eq_of_toNat_eq ?_⟩
  rw [extract_toNat, extract_toNat, hsum]
  omega

/-! ### LUI then ADDI (R59) -/

/-- The sign-extended immediate as a number: 0xFFFF above a negative half (R94). -/
theorem addiOperand_toNat (lo : BitVec 16) :
    (addiOperand lo).toNat = (if lo.getLsbD 15 then 0xFFFF0000 else 0) + lo.toNat := by
  have hlt := lo.isLt
  rw [addiOperand, sext32, BitVec.toNat_signExtend, BitVec.toNat_setWidth, BitVec.msb_eq_getLsbD_last]
  split <;> omega

/-- The upper half, one more where the lower is negative, makes up for the sign extension of the lower. -/
theorem luiValue_add_addiOperand (hi lo : BitVec 16) :
    luiValue (if lo.getLsbD 15 then hi + 1#16 else hi) + addiOperand lo = hi ++ lo := by
  have hhi := hi.isLt
  have hlo := lo.isLt
  apply BitVec.eq_of_toNat_eq
  rw [BitVec.toNat_add, luiValue_toNat, addiOperand_toNat, toNat_append_add]
  split
  · rw [BitVec.toNat_add, BitVec.toNat_ofNat]
    omega
  · omega

/-- Settles O42: two writes to one register, the second of the sum. -/
theorem luiThenAddiLoadsAnyConstant : Obligations.LuiThenAddiLoadsAnyConstant := by
  intro hi lo r s hr
  refine ⟨_, _, exec_lui 0#5 r _ s, exec_addi r r lo _, ?_, fun q hq => ?_⟩
  · rw [State.readReg_writeReg_same _ hr, State.readReg_writeReg_same _ hr, luiValue_add_addiOperand]
  · rw [State.readReg_writeReg_other _ hq, State.readReg_writeReg_other _ hq]

end Sys2Proof.Machine
end

section
/-! The proofs about one step: gating, recovery, short read, no-operations, the pc after it (40_step_cycle.md). -/

namespace Sys2Proof.Machine

/-! ### Gating (R70) -/

/-- An engine that is not live, or is paused, does not run. -/
theorem State.running_eq_false_iff (s : State) : s.running = false ↔ s.live = false ∨ s.paused = true := by
  rw [← Bool.not_eq_true, s.running_iff]
  cases s.live <;> cases s.paused <;> simp

/-- Settles O14: either bit gates the step. -/
theorem gatedStepChangesNothing : Obligations.GatedStepChangesNothing := fun s h =>
  step_gated (s.running_eq_false_iff.mpr h)

/-! ### The recovery (R72) -/

/-- RESET_VECTOR names physical 0x400. -/
theorem translateVa_resetVector : (translateVa Config.resetVector).toNat = 0x400 := by decide

/-- RESET_VECTOR is a multiple of 4. -/
theorem resetVector_aligned : Config.resetVector.extractLsb' 0 2 = 0#2 := by decide

/-- The recovery as a write of the pc. -/
theorem State.recoverPc_eq_ite (s : State) :
    s.recoverPc = { s with pc := if (translateVa s.pc).toNat < 0x800000 then s.pc else 0x80000400#32 } := by
  rcases s.recoverPc_cases with ⟨hout, heq⟩ | ⟨hin, heq⟩
  · have hpc : ¬(translateVa s.pc).toNat < 0x800000 := Nat.not_lt.mpr hout
    rw [heq, if_neg hpc]
    rfl
  · have hpc : (translateVa s.pc).toNat < 0x800000 := hin
    rw [heq, if_pos hpc]

/-- A recovered pc is inside the image. -/
theorem State.recoverPc_inside (s : State) : s.recoverPc.fetchAddr < Config.memSize := by
  rcases s.recoverPc_cases with ⟨-, heq⟩ | ⟨hin, heq⟩
  · rw [heq, State.fetchAddr, State.writePc_pc, translateVa_resetVector]
    decide
  · rwa [heq]

/-- A recovered pc needs no second recovery. -/
theorem State.recoverPc_recoverPc (s : State) : s.recoverPc.recoverPc = s.recoverPc := by
  have hin := s.recoverPc_inside
  rcases s.recoverPc.recoverPc_cases with ⟨hout, -⟩ | ⟨-, heq⟩
  · omega
  · exact heq

/-- A running step sees the pc only through the recovery. -/
theorem step_recoverPc {s : State} (hrun : s.running = true) : step s = step s.recoverPc := by
  have hrun' : s.recoverPc.running = true :=
    (State.running_congr s.recoverPc_live s.recoverPc_paused).trans hrun
  rw [step_running hrun, step_running hrun', State.fetchedInstr, State.fetchedInstr, State.dispatchState,
    State.dispatchState, s.recoverPc_recoverPc]

/-! ### What a running step answers (R71 to R78) -/

/-- A running step completes: an effect of the fetched instruction, then one cycle. -/
theorem step_effect {s : State} (hrun : s.running = true) :
    ∃ u, DispatchEffect s.fetchedInstr s.dispatchState u ∧ step s = .next u.countCycle := by
  obtain ⟨u, hu, he⟩ := exec_effect s.fetchedInstr s.dispatchState
  exact ⟨u, he, by rw [step_running hrun, hu, mapNext]⟩

/-- Settles O15: dispatch completes, and the step counts its cycle. -/
theorem stepRunsTheDecodedInstruction : Obligations.StepRunsTheDecodedInstruction := by
  intro s w hfetch
  obtain ⟨t, ht, -⟩ := exec_effect (decode w) s.advancePc
  exact ⟨t, ht, hfetch.step_eq_countCycle ht⟩

/-- A running engine whose pc names `p` fetches the word at `p`. -/
theorem State.fetches_of_addr {s : State} {w : Word} {p : Nat} (hrun : s.live = true ∧ s.paused = false)
    (haddr : (translateVa s.pc).toNat = p) (hin : p + 4 ≤ 0x800000)
    (hword : (s.mem.read p ++ s.mem.read (p + 1) ++ s.mem.read (p + 2) ++ s.mem.read (p + 3) : Word) = w) :
    s.Fetches w := by
  subst haddr
  exact ⟨hrun, hin, hword⟩

/-- Settles O16: the step is that of the recovered state, which fetches the word at 0x400. -/
theorem outOfBoundsFetchRecoversInTheSameStep : Obligations.OutOfBoundsFetchRecoversInTheSameStep := by
  intro s w hlive hpaused hout hword
  have hrecover : s.recoverPc = { s with pc := 0x80000400#32 } := by
    rw [s.recoverPc_eq_ite, if_neg (Nat.not_lt.mpr hout)]
  have hsame : step s = step { s with pc := 0x80000400#32 } := by
    rw [step_recoverPc (s.running_iff.mpr ⟨hlive, hpaused⟩), hrecover]
  have hfetch : State.Fetches { s with pc := 0x80000400#32 } w :=
    State.fetches_of_addr ⟨hlive, hpaused⟩ translateVa_resetVector (by decide) hword
  refine ⟨hsame, ?_⟩
  rw [hsame]
  exact stepRunsTheDecodedInstruction _ w hfetch

/-- Where the read fails the word is the NOP encoding (R73). -/
theorem State.fetchWord_of_short {s : State} (h : Config.memSize < s.fetchAddr + 4) : s.fetchWord = Config.nopWord := by
  rw [State.fetchWord, Memory.readWord, if_neg (Nat.not_le.mpr h), Option.getD_none]

/-- Settles O17: the NOP word's dispatch does nothing, and pc + 4 has left the image. -/
theorem shortReadStepsAsNop : Obligations.ShortReadStepsAsNop := by
  intro s hlive hpaused hin hshort
  have hrecover : s.recoverPc = s := by
    rw [s.recoverPc_eq_ite, if_pos hin]
  refine ⟨?_, ?_⟩
  · rw [step_running (s.running_iff.mpr ⟨hlive, hpaused⟩), State.fetchedInstr, State.dispatchState, hrecover,
      State.fetchWord_of_short hshort, decode_of_sllNopMask (by decide), exec_sllNop]
    rfl
  · have hpc : s.nopStep.pc = s.pc + 4#32 := rfl
    rw [translateVa_toNat] at hin hshort ⊢
    rw [hpc, BitVec.toNat_add, BitVec.toNat_ofNat]
    omega

/-! ### Rows that do nothing (R11, R100, R101, R115) -/

theorem exec_unrecFunct (rs rt rd : RegNum) (sh : BitVec 5) (fn : BitVec 6) (s : State) :
    exec (.unrecFunct rs rt rd sh fn) s = .next s := rfl

/-- Settles O28: the row's mask fixes the opcode, and dispatch leaves the advanced state as it is. -/
theorem lwIsInert : Obligations.LwIsInert := by
  have hdecode {w : Word} (h : w &&& 0xFC000000#32 = 0x8C000000#32) := decode_lw (fieldOpcode_of_opcodeMask h)
  refine ⟨fun w h => ⟨_, _, _, hdecode h⟩, exec_lw, fun s w hfetch hmask => ?_⟩
  apply hfetch.step_eq_nopStep
  rw [hdecode hmask, exec_lw]

/-- Settles O29: the row's mask fixes the opcode, and dispatch leaves the advanced state as it is. -/
theorem swIsInert : Obligations.SwIsInert := by
  have hdecode {w : Word} (h : w &&& 0xFC000000#32 = 0xAC000000#32) := decode_sw (fieldOpcode_of_opcodeMask h)
  refine ⟨fun w h => ⟨_, _, _, hdecode h⟩, exec_sw, fun s w hfetch hmask => ?_⟩
  apply hfetch.step_eq_nopStep
  rw [hdecode hmask, exec_sw]

/-- Settles O31: the word falls through both functs, and dispatch leaves the advanced state as it is. -/
theorem unrecognisedFunctIsANoOperation : Obligations.UnrecognisedFunctIsANoOperation := by
  refine ⟨fun w ho hsll hadd => ⟨_, _, _, _, decode_unrecFunct ho hadd hsll⟩, exec_unrecFunct,
    fun s w hfetch ho hsll hadd => ?_⟩
  apply hfetch.step_eq_nopStep
  rw [decode_unrecFunct ho hadd hsll, exec_unrecFunct]

/-- Settles O34: a write to register 0 is the state itself. -/
theorem registerZeroReadsZeroAndDiscardsWrites : Obligations.RegisterZeroReadsZeroAndDiscardsWrites := by
  refine ⟨State.readReg_zero, fun rs rt sh s => ?_, fun rs imm s => ?_, fun rs imm s => ?_, fun s w hfetch h => ?_⟩
  · rw [exec_add, State.writeReg_zero]
  · rw [exec_addi, State.writeReg_zero]
  · rw [exec_lui, State.writeReg_zero]
  · apply hfetch.step_eq_nopStep
    rcases h with ⟨rs, rt, sh, hw⟩ | ⟨rs, imm, hw⟩ | ⟨rs, imm, hw⟩
    · rw [hw, exec_add, State.writeReg_zero]
    · rw [hw, exec_addi, State.writeReg_zero]
    · rw [hw, exec_lui, State.writeReg_zero]

/-! ### The pc after a step (R15, R110) -/

/-- J's target as a word (R107). -/
theorem jumpTarget_eq_ofNat (pcNext : Word) (target : BitVec 26) :
    jumpTarget pcNext target = BitVec.ofNat 32 (pcNext.toNat / 0x10000000 * 0x10000000 + 4 * target.toNat) := by
  apply BitVec.eq_of_toNat_eq
  have := pcNext.isLt
  have := target.isLt
  rw [jumpTarget_toNat, BitVec.toNat_ofNat]
  omega

/-- Settles O22: the step runs the word at the recovered pc, and dispatch leaves the pc by the word's row. -/
theorem pcAfterEachInstruction : Obligations.PcAfterEachInstruction := by
  intro s w pcInstr hlive hpaused hpc hfetch
  have hrecover : s.recoverPc = { s with pc := pcInstr } := by rw [s.recoverPc_eq_ite, hpc]
  obtain ⟨u, hu, he⟩ := exec_effect (decode w) (State.advancePc { s with pc := pcInstr })
  have hstep : step s = .next u.countCycle := by
    rw [step_recoverPc (s.running_iff.mpr ⟨hlive, hpaused⟩), hrecover, hfetch.step_eq_countCycle hu]
  refine ⟨_, hstep, ?_⟩
  rw [State.countCycle_pc, he.pc_eq]
  cases decode w with
  | bne rs rt offset =>
    exact congrArg (fun p => if s.readReg rs = s.readReg rt then pcInstr + 4#32 else p)
      (branchTarget_add_four pcInstr offset)
  | j target => exact jumpTarget_eq_ofNat _ target
  | add | sllNop | addi | lui | lw | sw | unrecFunct | unrecOpcode => rfl

/-- The advance keeps the pc modulo 4. -/
theorem add_four_low (pc : Word) : (pc + 4#32).extractLsb' 0 2 = pc.extractLsb' 0 2 := by
  apply BitVec.eq_of_toNat_eq
  rw [extract_toNat, extract_toNat, BitVec.toNat_add, BitVec.toNat_ofNat]
  omega

/-- A taken branch keeps the pc modulo 4 (R105). -/
theorem branchTarget_low (pcNext : Word) (offset : BitVec 16) :
    (branchTarget pcNext offset).extractLsb' 0 2 = pcNext.extractLsb' 0 2 := by
  apply BitVec.eq_of_toNat_eq
  rw [extract_toNat, extract_toNat, branchTarget_eq, BitVec.toNat_ofInt]
  omega

/-- Dispatch keeps the pc modulo 4, but J makes it 0. -/
theorem dispatchPc_low {w : Word} {i : Instr} (h : DecodesTo w i) (s : State) :
    (s.dispatchPc i).extractLsb' 0 2 = if fieldOpcode w = 0x02#6 then 0#2 else s.pc.extractLsb' 0 2 := by
  cases h with
  | j ho => rw [if_pos ho, State.dispatchPc, jumpTarget_aligned]
  | bne ho =>
    rw [if_neg (by simp [ho]), State.dispatchPc]
    split
    · rfl
    · exact branchTarget_low ..
  | add ho | sllNop ho | unrecFunct ho | addi ho | lui ho | lw ho | sw ho => simp [ho, State.dispatchPc]
  | unrecOpcode ho =>
    have hj : fieldOpcode w ≠ 0x02#6 := fun e => by simp [e, recognisedOpcode] at ho
    rw [if_neg hj]
    rfl

/-- The pc modulo 4 after a running step: that of the recovered pc, but 0 after J. -/
theorem step_pc_low {s t : State} (hrun : s.running = true) (h : step s = .next t) :
    t.pc.extractLsb' 0 2 =
      if fieldOpcode s.recoverPc.fetchWord = 0x02#6 then 0#2 else s.recoverPc.pc.extractLsb' 0 2 := by
  obtain ⟨u, he, hu⟩ := step_effect hrun
  obtain rfl := Host.Outcome.next.inj (hu.symm.trans h)
  rw [State.countCycle_pc, he.pc_eq, State.fetchedInstr, dispatchPc_low (decodesTo_decode _), State.dispatchState_pc,
    add_four_low]

/-- Settles O45: the recovered pc is aligned, and every other one is the pc itself. -/
theorem stepKeepsPcModuloFourButForJ : Obligations.StepKeepsPcModuloFourButForJ := by
  intro s hlive hpaused
  have hrun : s.running = true := s.running_iff.mpr ⟨hlive, hpaused⟩
  obtain ⟨t, ht⟩ := step_completes s
  have hlow := step_pc_low hrun ht
  refine ⟨t, ht, fun hout => ?_, fun w hfetch => ?_⟩
  · have hpc : s.recoverPc.pc = Config.resetVector := by
      rw [s.recoverPc_eq_ite]
      exact if_neg (Nat.not_lt.mpr hout)
    rw [hlow, hpc, resetVector_aligned, ite_self]
  · rw [hlow, hfetch.recoverPc_eq, hfetch.fetchWord_eq, fieldOpcode]

/-! ### The invariant of a step (R15, R36) -/

/-- The recovery keeps an aligned pc aligned. -/
theorem State.PcAligned.recoverPc {s : State} (h : s.PcAligned) : s.recoverPc.PcAligned := by
  rcases s.recoverPc_cases with ⟨-, heq⟩ | ⟨-, heq⟩
  · rw [heq]
    exact resetVector_aligned
  · rwa [heq]

/-- No step writes memory (R36). -/
theorem step_mem {s t : State} (h : step s = .next t) : t.mem = s.mem := by
  rcases step_cases h with ⟨-, rfl⟩ | ⟨-, u, he, rfl⟩
  · rfl
  · rw [State.countCycle_mem, he.frame.1, State.dispatchState_mem]

/-- A step leaves an aligned pc aligned (R15). -/
theorem State.PcAligned.step {s t : State} (haligned : s.PcAligned) (h : step s = .next t) : t.PcAligned := by
  rcases step_cases h with ⟨-, rfl⟩ | ⟨hrun, -⟩
  · exact haligned
  · have hrecover : s.recoverPc.pc.extractLsb' 0 2 = 0#2 := haligned.recoverPc
    rw [State.PcAligned, step_pc_low hrun h, hrecover, ite_self]

/-- Settles O54: a step keeps memory whole and the pc aligned. -/
theorem everyStepKeepsTheInvariant : Obligations.EveryStepKeepsTheInvariant := by
  intro s t ⟨hcanonical, haligned⟩ h
  refine ⟨?_, haligned.step h⟩
  rwa [State.MemCanonical, step_mem h]

end Sys2Proof.Machine
end

section
/-! The proofs about the commands and the host operations: power-on, Reset, LoadImage, the flags, sequences
(45_host_commands.md). -/

namespace Sys2Proof.Machine

/-! ### Memory as a whole (R19, R30, R124) -/

/-- A canonical memory lists no byte outside the image. -/
theorem Memory.read_outside {m : Memory} : ∀ {lo q : Nat}, m.wfFrom lo = true → Config.memSize ≤ q →
    m.read q = unlistedByte := by
  induction m with
  | nil => intros; rfl
  | cons c rest ih =>
    obtain ⟨a, d⟩ := c
    intro lo q h hq
    simp only [wfFrom, Bool.and_eq_true, decide_eq_true_eq] at h
    obtain ⟨⟨⟨-, ha⟩, -⟩, hrest⟩ := h
    rw [read, if_neg (by omega), ih hrest hq]

/-- Memory after bytes are copied from physical 0 and cut at the image's end: the copy, and the rest as it was
(R124). -/
theorem Memory.read_writeBytes_image {m : Memory} (h : m.wf = true) (bytes : List Byte) (a : Nat) :
    (m.writeBytes 0 (bytes.take Config.memSize)).read a =
      if a < bytes.length ∧ a < Config.memSize then bytes.getD a 0x00#8 else m.read a := by
  have hfits : 0 + (bytes.take Config.memSize).length ≤ Config.memSize := by simp [List.length_take]
  have hrange : (0 ≤ a ∧ a < 0 + (bytes.take Config.memSize).length) ↔ (a < bytes.length ∧ a < Config.memSize) := by
    rw [List.length_take]
    omega
  rw [read_writeBytes _ h hfits, if_congr hrange rfl rfl]
  split
  · next hin =>
    rw [Nat.sub_zero, List.getD_eq_getElem?_getD, List.getElem?_take_of_lt hin.2, List.getD_eq_getElem?_getD]
  · rfl

/-- Settles O57: beyond the image two canonical memories read alike too, and then they are one list. -/
theorem statesThatReadAlikeAreEqual : Obligations.StatesThatReadAlikeAreEqual := by
  intro s t hs ht hregs hpc hbytes hcontrol
  have hx : t.x = s.x := State.x_ext hregs
  have hmem : t.mem = s.mem := by
    refine Memory.ext_of_wf ht hs fun q => ?_
    by_cases hq : q < Config.memSize
    · exact hbytes q hq
    · rw [Memory.read_outside ht (Nat.not_lt.mp hq), Memory.read_outside hs (Nat.not_lt.mp hq)]
  obtain ⟨hcycle, hlive, hpaused⟩ := hcontrol
  cases s
  cases t
  rw [State.mk.injEq]
  exact ⟨hx, hpc, hmem, hcycle, hlive, hpaused⟩

/-! ### Runs of gated Steps (R70) -/

/-- Steps of an engine that does not run change nothing, however many. -/
theorem stepMany_gated {s : State} (h : s.running = false) (n : Nat) : stepMany n s = .next s := by
  induction n with
  | zero => rfl
  | succ n ih => rw [stepMany, step_gated h, thenNext, ih]

/-- An engine that is not live stays where it is. -/
theorem stepMany_of_not_live {s : State} (h : s.live = false) (n : Nat) : stepMany n s = .next s :=
  stepMany_gated (s.running_eq_false_iff.mpr (.inl h)) n

/-! ### PowerOn and Reset (R121, R122) -/

/-- Settles O1: MEM_INIT is copied into empty memory. -/
theorem powerOnGivesEveryPowerOnValue : Obligations.PowerOnGivesEveryPowerOnValue := by
  intro memInit s
  refine ⟨powerOn memInit, rfl, readReg_of_zero_file rfl, rfl, rfl, rfl, rfl, fun a ha hin => ?_⟩
  have hread := Memory.read_writeBytes_image (m := []) rfl memInit a
  rwa [if_pos ⟨ha, hin⟩] at hread

/-- Settles O2: the fields as they are written, an unlisted byte reading as zero. -/
theorem resetStateHoldsThePowerOnValues : Obligations.ResetStateHoldsThePowerOnValues :=
  ⟨readReg_of_zero_file rfl, rfl, rfl, rfl, rfl, rfl, fun _ => rfl⟩

/-- Settles O3: the fields Reset writes, and the gate that live = 0 is. -/
theorem resetCommandKeepsMemoryAndPaused : Obligations.ResetCommandKeepsMemoryAndPaused := fun s =>
  ⟨resetCommand s, rfl, readReg_of_zero_file rfl, rfl, rfl, rfl, rfl, fun _ => rfl, stepMany_of_not_live rfl⟩

/-- Settles O55: power-on memory is canonical, and RESET_VECTOR is aligned. -/
theorem powerOnMeetsTheInvariant : Obligations.PowerOnMeetsTheInvariant :=
  ⟨⟨reset_wf, resetVector_aligned⟩, fun memInit => ⟨powerOn_wf memInit, resetVector_aligned⟩⟩

/-! ### LoadImage (R123 to R126) -/

/-- An image too short changes nothing (R123). -/
theorem loadImage_short {bytes : List Byte} (hlen : bytes.length < 12) (s : State) :
    loadImage bytes s = (.err .truncated, s) := by
  rcases loadImage_cases bytes s with ⟨-, heq⟩ | ⟨hlong, -⟩
  · exact heq
  · omega

/-- Settles O4: the two cases of a load. -/
theorem loadImageFailsExactlyBelowTwelveBytes : Obligations.LoadImageFailsExactlyBelowTwelveBytes := by
  refine fun bytes s => ⟨fun hshort => ?_, fun hlong => ⟨entryAddress bytes, (loadImage bytes s).2, ?_⟩⟩
  · rw [issue, loadImage_short hshort]
  · rw [issue, loadImage_ok hlong]

/-- Settles O5: the load copies from physical 0. -/
theorem loadImageCopiesTheBytesInOrder : Obligations.LoadImageCopiesTheBytesInOrder := by
  intro bytes s hlong hcanonical
  refine ⟨entryAddress bytes, (loadImage bytes s).2, ?_, fun a => ?_⟩
  · rw [issue, loadImage_ok hlong]
  · rw [loadImage_ok hlong]
    exact Memory.read_writeBytes_image hcanonical bytes a

/-- A load leaves the registers, CYCLE and the flags, whether it succeeds or fails (R126). -/
theorem loadImage_frame (bytes : List Byte) (s : State) :
    s.SameRegs (loadImage bytes s).2 ∧ s.SameControl (loadImage bytes s).2 := by
  rcases loadImage_cases bytes s with ⟨-, heq⟩ | ⟨-, heq⟩ <;> rw [heq] <;> exact ⟨fun _ => rfl, rfl, rfl, rfl⟩

/-- Settles O7, by the frame of a load. -/
theorem loadImageLeavesRegistersCycleAndFlags : Obligations.LoadImageLeavesRegistersCycleAndFlags := fun bytes s =>
  ⟨_, _, rfl, loadImage_frame bytes s⟩

/-! ### The flags, the run state and Snapshot (R17, R127, R128, R130) -/

/-- Settles O8: one field is written, and the run state reads it once live is 1. -/
theorem setPausedWritesOnlyPaused : Obligations.SetPausedWritesOnlyPaused := by
  refine fun b s => ⟨setPaused b s, rfl, rfl, fun _ => rfl, rfl, fun _ => rfl, rfl, rfl,
    setLive true (setPaused b s), rfl, ?_⟩
  cases b <;> rfl

/-- Settles O9: one field is written. -/
theorem setLiveWritesOnlyLive : Obligations.SetLiveWritesOnlyLive := fun b s =>
  ⟨setLive b s, rfl, rfl, fun _ => rfl, rfl, fun _ => rfl, rfl, rfl⟩

/-- Settles O10: the reply is the copy of the six fields. -/
theorem snapshotReadsSixFieldsAndChangesNothing : Obligations.SnapshotReadsSixFieldsAndChangesNothing := fun _ => rfl

/-- CYCLE after a step: one more where the engine runs (R78). -/
theorem step_cycle {s t : State} (h : step s = .next t) : t.cycle = if s.running then s.cycle + 1 else s.cycle := by
  rcases step_cases h with ⟨hrun, rfl⟩ | ⟨hrun, u, he, rfl⟩
  · simp [hrun]
  · rw [if_pos hrun, State.countCycle_cycle, he.sameControl.cycle, State.dispatchState_cycle]

/-- CYCLE rises in a step exactly where the engine runs. -/
theorem step_cycle_succ_iff {s t : State} (h : step s = .next t) :
    t.cycle = s.cycle + 1 ↔ s.live = true ∧ s.paused = false := by
  rw [step_cycle h, ← s.running_iff]
  cases s.running <;> simp

/-- The run state is Running exactly where a Step has an effect (R70). -/
theorem State.runState_running_iff (s : State) : s.runState = .running ↔ s.live = true ∧ s.paused = false := by
  rw [← s.running_iff, State.running, decide_eq_true_iff]

/-- Settles O11: the table of the two bits, and the count of a running step. -/
theorem runStateFollowsTheTwoBits : Obligations.RunStateFollowsTheTwoBits := by
  intro s
  obtain ⟨t, ht⟩ := step_completes s
  refine ⟨?_, ?_, s.runState_running_iff, t, ht, (step_cycle_succ_iff ht).trans s.runState_running_iff.symm⟩
  all_goals cases hl : s.live <;> cases hp : s.paused <;> simp [State.runState, hl, hp]

/-! ### Host operations (R132, R133) -/

/-- Settles O12: stop clears live and start issues nothing. -/
theorem stopThenStartKeepsTheState : Obligations.StopThenStartKeepsTheState := fun s =>
  ⟨setLive false s, setLive false s, rfl, rfl, fun _ => rfl, rfl, fun _ => rfl, rfl, rfl, rfl,
    stepMany_of_not_live rfl, setLive true (setLive false s), rfl, rfl⟩

/-- Settles O13: by what the load returns, live is set or no further command is issued. -/
theorem loadRomSetsLiveOnlyOnSuccess : Obligations.LoadRomSetsLiveOnlyOnSuccess := by
  refine fun s => ⟨rfl, fun bytes hshort => ?_, fun bytes hlong => ?_⟩
  · simp only [hostDo, HostOp.commands, loadImage_short hshort, issueAll, issue, thenNext]
  · refine ⟨entryAddress bytes, (loadImage bytes s).2, setLive true (loadImage bytes s).2, ?_, ?_, rfl, ?_⟩
    · rw [issue, loadImage_ok hlong]
    · simp only [hostDo, HostOp.commands, loadImage_ok hlong, issueAll, issue, thenNext]
    · rw [loadImage_ok hlong]
      rfl

/-! ### What every command keeps (R120) -/

/-- CYCLE after one command (R16, R120). -/
def Command.cycleAfter (c : Command) (s : State) : Nat :=
  match c with
  | .powerOn _ | .reset => 0
  | .step => if s.running then s.cycle + 1 else s.cycle
  | .loadImage _ | .setLive _ | .setPaused _ | .snapshot => s.cycle

/-- Every command completes, with CYCLE as above, and keeps memory canonical. -/
theorem issue_spec (c : Command) (s : State) : ∃ r t, issue c s = .next (r, t) ∧ t.cycle = c.cycleAfter s ∧
    (s.MemCanonical → t.MemCanonical) := by
  cases c with
  | powerOn memInit => exact ⟨_, _, rfl, rfl, fun _ => powerOn_wf memInit⟩
  | loadImage bytes => exact ⟨_, _, rfl, (loadImage_frame bytes s).2.cycle, loadImage_wf bytes⟩
  | reset | setLive | setPaused | snapshot => exact ⟨_, _, rfl, rfl, id⟩
  | step =>
    obtain ⟨t, ht⟩ := step_completes s
    refine ⟨.none, t, by rw [issue, ht, mapNext], step_cycle ht, fun h => ?_⟩
    rwa [State.MemCanonical, step_mem ht]

/-- Settles O19: a running Step alone counts; any other command leaves CYCLE or clears it. -/
theorem cycleCountsExactlyTheStepsNotGated : Obligations.CycleCountsExactlyTheStepsNotGated := by
  intro c s
  obtain ⟨r, t, h, hcycle, -⟩ := issue_spec c s
  refine ⟨r, t, h, ?_⟩
  rw [hcycle, ← s.running_iff]
  cases c with
  | step =>
    rw [Command.cycleAfter]
    cases s.running <;> simp
  | powerOn | reset | loadImage | setLive | setPaused | snapshot => simp [Command.cycleAfter]

/-- No command but Reset and PowerOn lowers CYCLE. -/
theorem Command.le_cycleAfter {c : Command} (hc : c ≠ .reset ∧ ∀ m, c ≠ .powerOn m) (s : State) :
    s.cycle ≤ c.cycleAfter s := by
  cases c with
  | powerOn m => exact absurd rfl (hc.2 m)
  | reset => exact absurd rfl hc.1
  | step =>
    rw [Command.cycleAfter]
    split <;> omega
  | loadImage | setLive | setPaused | snapshot => exact Nat.le_refl _

/-- Settles O53, by induction on the sequence. -/
theorem cycleNeverFallsBetweenResets : Obligations.CycleNeverFallsBetweenResets := by
  intro cs
  induction cs with
  | nil => exact fun s _ => ⟨s, rfl, Nat.le_refl _⟩
  | cons c cs ih =>
    intro s hcs
    obtain ⟨hc, hrest⟩ := List.forall_mem_cons.mp hcs
    obtain ⟨r, t, ht, hcycle, -⟩ := issue_spec c s
    obtain ⟨u, hu, hle⟩ := ih t hrest
    have hfirst : s.cycle ≤ t.cycle := hcycle ▸ Command.le_cycleAfter hc s
    exact ⟨u, by rw [issueAll, ht, thenNext, hu], hfirst.trans hle⟩

/-- Every sequence of commands completes and keeps memory canonical. -/
theorem issueAll_memCanonical (cs : List Command) : ∀ s : State, s.MemCanonical →
    ∃ t, issueAll cs s = .next t ∧ t.MemCanonical := by
  induction cs with
  | nil => exact fun s h => ⟨s, rfl, h⟩
  | cons c cs ih =>
    intro s h
    obtain ⟨r, t, ht, -, hkeeps⟩ := issue_spec c s
    obtain ⟨u, hu, hcanonical⟩ := ih t (hkeeps h)
    exact ⟨u, by rw [issueAll, ht, thenNext, hu], hcanonical⟩

/-- Settles O56: by induction on the sequence, from any power-on for a reachable state. -/
theorem everyCommandSequenceKeepsMemoryCanonical : Obligations.EveryCommandSequenceKeepsMemoryCanonical := by
  refine ⟨issueAll_memCanonical, fun t ⟨memInit, cs, h⟩ => ?_⟩
  obtain ⟨u, hu, hcanonical⟩ := issueAll_memCanonical cs (powerOn memInit) (powerOn_wf memInit)
  obtain rfl := Host.Outcome.next.inj (hu.symm.trans h)
  exact hcanonical

/-- Settles O50: the three commands leave the load's memory and pc, and the flags of a running engine. -/
theorem bootFetchesTheImagesEntryWord : Obligations.BootFetchesTheImagesEntryWord := by
  intro bytes s entry hlong hcanonical hentry hinBytes hinImage
  obtain ⟨hregs, hcontrol⟩ := loadImage_frame bytes s
  have hpc : (loadImage bytes s).2.pc = entry := by
    rw [loadImage_ok hlong, hentry]
    rfl
  have hread (k : Nat) (hk : k < 4) : (loadImage bytes s).2.mem.read ((translateVa entry).toNat + k) =
      bytes.getD ((translateVa entry).toNat + k) 0x00#8 := by
    have hin : (translateVa entry).toNat + k < Config.memSize := by
      rw [Config.memSize]
      omega
    exact loadImage_read hlong hcanonical (by omega) hin
  have hfirst := hread 0 (by omega)
  rw [Nat.add_zero] at hfirst
  refine ⟨setPaused false (setLive true (loadImage bytes s).2), rfl, hpc, hregs, hcontrol.cycle, ?_⟩
  refine State.fetches_of_addr ⟨rfl, rfl⟩ (congrArg (fun va => (translateVa va).toNat) hpc) hinImage ?_
  rw [setPaused_mem, setLive_mem, hfirst, hread 1 (by omega), hread 2 (by omega), hread 3 (by omega)]

end Sys2Proof.Machine
end

section
/-! The proofs about runs of Steps: invariants and simulations along a run, what a step does not see, aliases, idling
(10_state.md, 20_memory.md, 60_exceptions.md). -/

namespace Sys2Proof.Machine

/-! ### Induction along a run -/

/-- A run with one more Step behind it. -/
theorem stepMany_succ_of {n : Nat} {s t u : State} (hrun : stepMany n s = .next t) (hstep : step t = .next u) :
    stepMany (n + 1) s = .next u := by
  rw [stepMany_add, hrun, thenNext, stepMany, hstep, thenNext, stepMany]

/-- What holds at the start and is handed on by every step, with the number of steps, holds after any run. -/
theorem stepMany_invariant {P : Nat → State → Prop} (hstep : ∀ k t, P k t → ∃ u, step t = .next u ∧ P (k + 1) u)
    {s : State} (h : P 0 s) (n : Nat) : ∃ t, stepMany n s = .next t ∧ P n t := by
  induction n with
  | zero => exact ⟨s, rfl, h⟩
  | succ n ih =>
    obtain ⟨t, hrun, ht⟩ := ih
    obtain ⟨u, hu, hP⟩ := hstep n t ht
    exact ⟨u, stepMany_succ_of hrun hu, hP⟩

/-- What relates two states and is handed on by a step of both relates them after any run. -/
theorem stepMany_simulation {R : State → State → Prop}
    (hstep : ∀ s t, R s t → ∃ s' t', step s = .next s' ∧ step t = .next t' ∧ R s' t') {s t : State} (h : R s t)
    (n : Nat) : ∃ s' t', stepMany n s = .next s' ∧ stepMany n t = .next t' ∧ R s' t' := by
  induction n with
  | zero => exact ⟨s, t, rfl, rfl, h⟩
  | succ n ih =>
    obtain ⟨s', t', hs, ht, hR⟩ := ih
    obtain ⟨s'', t'', hs', ht', hR'⟩ := hstep s' t' hR
    exact ⟨s'', t'', stepMany_succ_of hs hs', stepMany_succ_of ht ht', hR'⟩

/-! ### What no step changes (R17, R36, R81) -/

/-- No step writes a run flag (R17). -/
theorem step_flags {s t : State} (h : step s = .next t) : t.live = s.live ∧ t.paused = s.paused := by
  rcases step_cases h with ⟨-, rfl⟩ | ⟨-, u, he, rfl⟩
  · exact ⟨rfl, rfl⟩
  · obtain ⟨-, hlive, hpaused⟩ := he.sameControl
    exact ⟨hlive.trans s.dispatchState_live, hpaused.trans s.dispatchState_paused⟩

/-- Settles O48: no step of the run writes memory. -/
theorem stepsNeverWriteMemory : Obligations.StepsNeverWriteMemory := by
  intro n s
  have hstep (_ : Nat) (t : State) (hmem : t.mem = s.mem) : ∃ u, step t = .next u ∧ u.mem = s.mem := by
    obtain ⟨u, hu⟩ := step_completes t
    exact ⟨u, hu, (step_mem hu).trans hmem⟩
  obtain ⟨t, ht, hmem⟩ := stepMany_invariant hstep rfl n
  exact ⟨t, ht, hmem, fun a => by rw [hmem]⟩

/-- A running engine that has counted `k` cycles since CYCLE was `c`. -/
structure State.RunningSince (c k : Nat) (s : State) : Prop where
  live : s.live = true
  paused : s.paused = false
  cycle : s.cycle = c + k

/-- A running engine still runs after a step, with one cycle more. -/
theorem State.RunningSince.step {c k : Nat} {s : State} (h : s.RunningSince c k) :
    ∃ t, step s = .next t ∧ t.RunningSince c (k + 1) := by
  obtain ⟨t, ht⟩ := step_completes s
  obtain ⟨hlive, hpaused⟩ := step_flags ht
  have hcycle : t.cycle = s.cycle + 1 := (step_cycle_succ_iff ht).mpr ⟨h.live, h.paused⟩
  exact ⟨t, ht, hlive.trans h.live, hpaused.trans h.paused, by rw [hcycle, h.cycle, Nat.add_assoc]⟩

/-- Settles O51: a running engine hands on its flags and one cycle per step. -/
theorem runningEngineRunsForEver : Obligations.RunningEngineRunsForEver := by
  intro s hlive hpaused n
  have hstart : s.RunningSince s.cycle 0 := ⟨hlive, hpaused, rfl⟩
  obtain ⟨t, ht, hsince⟩ := stepMany_invariant (fun _ _ => State.RunningSince.step) hstart n
  exact ⟨t, ht, hsince.live, hsince.paused, hsince.cycle⟩

/-! ### What a step does not see: other bytes of memory, CYCLE (R16, R35, R104) -/

/-- A state with another memory and another CYCLE. -/
def State.withMemCycle (s : State) (m : Memory) (k : Nat) : State := { s with mem := m, cycle := k }

theorem State.writeReg_withMemCycle (s : State) (m : Memory) (k : Nat) (r : RegNum) (v : Word) :
    (s.withMemCycle m k).writeReg r v = (s.writeReg r v).withMemCycle m k := by
  unfold State.writeReg
  split <;> rfl

theorem State.recoverPc_withMemCycle (s : State) (m : Memory) (k : Nat) :
    (s.withMemCycle m k).recoverPc = s.recoverPc.withMemCycle m k := by
  rw [State.recoverPc_eq_ite, State.recoverPc_eq_ite]
  rfl

theorem exec_bne (rs rt : RegNum) (offset : BitVec 16) (s : State) : exec (.bne rs rt offset) s =
    .next (if differ (s.readReg rs) (s.readReg rt) then s.writePc (branchTarget s.pc offset) else s) := rfl

/-- Dispatch sees neither memory nor CYCLE (R16, R104). -/
theorem DispatchEffect.withMemCycle {i : Instr} {s t : State} (h : DispatchEffect i s t) (m : Memory) (k : Nat) :
    exec i (s.withMemCycle m k) = .next (t.withMemCycle m k) := by
  cases h with
  | add rs rt rd sh => exact congrArg Host.Outcome.next (s.writeReg_withMemCycle m k rd _)
  | addi rs rt imm => exact congrArg Host.Outcome.next (s.writeReg_withMemCycle m k rt _)
  | lui rs rt imm => exact congrArg Host.Outcome.next (s.writeReg_withMemCycle m k rt _)
  | bneTaken rs rt offset _ hne =>
    rw [exec_bne]
    exact congrArg Host.Outcome.next (if_pos hne)
  | bneNotTaken rs rt offset _ heq =>
    rw [exec_bne]
    exact congrArg Host.Outcome.next (if_neg (ne_true_of_eq_false heq))
  | j | sllNop | lw | sw | unrecFunct | unrecOpcode => rfl

/-- A step sees the four bytes at its fetch address only, and CYCLE not at all: the other engine steps alike, and counts
as many cycles. -/
theorem step_withMemCycle {s : State} {m : Memory}
    (hbytes : ∀ j, j < 4 → m.read (s.recoverPc.fetchAddr + j) = s.mem.read (s.recoverPc.fetchAddr + j)) (k : Nat) :
    ∃ t d, step s = .next t ∧ t.cycle = s.cycle + d ∧ step (s.withMemCycle m k) = .next (t.withMemCycle m (k + d)) := by
  cases hrun : s.running with
  | false => exact ⟨s, 0, step_gated hrun, rfl, step_gated hrun⟩
  | true =>
    have hword : (s.recoverPc.withMemCycle m k).fetchWord = s.recoverPc.fetchWord := by
      rw [State.fetchWord, State.fetchWord, s.recoverPc_mem]
      exact congrArg (·.getD Config.nopWord) (Memory.readWord_congr hbytes)
    have hinstr : (s.withMemCycle m k).fetchedInstr = s.fetchedInstr := by
      rw [State.fetchedInstr, State.fetchedInstr, State.recoverPc_withMemCycle, hword]
    have hstate : (s.withMemCycle m k).dispatchState = s.dispatchState.withMemCycle m k := by
      rw [State.dispatchState, State.recoverPc_withMemCycle]
      rfl
    have hrun' : (s.withMemCycle m k).running = true := hrun
    obtain ⟨u, he, hu⟩ := step_effect hrun
    refine ⟨u.countCycle, 1, hu, ?_, ?_⟩
    · rw [State.countCycle_cycle, he.sameControl.cycle, State.dispatchState_cycle]
    · rw [step_running hrun', hinstr, hstate, he.withMemCycle m k]
      rfl

/-- Settles O46: the fetch address is that of the recovered pc. -/
theorem stepSeesOnlyTheFetchedBytes : Obligations.StepSeesOnlyTheFetchedBytes := by
  intro s m p hp hbytes
  have haddr : s.recoverPc.fetchAddr = p := by
    rw [hp, s.recoverPc_eq_ite, State.fetchAddr]
    split
    · rfl
    · exact translateVa_resetVector
  obtain ⟨t, d, ht, hcycle, hother⟩ := step_withMemCycle (haddr ▸ hbytes) s.cycle
  rw [← hcycle] at hother
  exact ⟨t, ht, hother⟩

/-- Two states alike but for CYCLE, which has risen as much since it was `c` in the one and `k` in the other. -/
def State.CycleShifted (c k : Nat) (s t : State) : Prop :=
  ∃ d, s.cycle = c + d ∧ t = s.withMemCycle s.mem (k + d)

/-- A step keeps two states alike but for CYCLE. -/
theorem State.CycleShifted.step {c k : Nat} {s t : State} (h : s.CycleShifted c k t) :
    ∃ s' t', step s = .next s' ∧ step t = .next t' ∧ s'.CycleShifted c k t' := by
  obtain ⟨d, hcycle, rfl⟩ := h
  obtain ⟨s', e, hs, hrise, ht⟩ := step_withMemCycle (s := s) (m := s.mem) (fun _ _ => rfl) (k + d)
  refine ⟨s', _, hs, ht, d + e, by rw [hrise, hcycle, Nat.add_assoc], ?_⟩
  rw [step_mem hs, Nat.add_assoc]

/-- Settles O52: a run hands on the likeness step by step. -/
theorem noInstructionReadsCycle : Obligations.NoInstructionReadsCycle := by
  intro s k n
  have hstart : s.CycleShifted s.cycle k { s with cycle := k } := ⟨0, rfl, rfl⟩
  obtain ⟨t, _, hs, ht, d, hcycle, rfl⟩ := stepMany_simulation (fun _ _ => State.CycleShifted.step) hstart n
  refine ⟨t, d, ?_, ht⟩
  rw [hs, ← hcycle]

/-! ### Aliases of one physical address (R31, R32) -/

/-- Addresses translate alike when their low 29 bits agree (R31). -/
theorem translateVa_eq_iff {a b : Word} : translateVa a = translateVa b ↔ a.toNat % 2 ^ 29 = b.toNat % 2 ^ 29 := by
  rw [← BitVec.toNat_inj, translateVa_toNat, translateVa_toNat]

/-- The same displacement from two aliases leads to aliases. -/
theorem translateVa_add_congr {a b : Word} (h : translateVa a = translateVa b) (c : Word) :
    translateVa (a + c) = translateVa (b + c) := by
  rw [translateVa_eq_iff] at h ⊢
  rw [BitVec.toNat_add, BitVec.toNat_add]
  omega

/-- A taken branch from two aliases leads to aliases. -/
theorem translateVa_branchTarget_congr {a b : Word} (h : translateVa a = translateVa b) (offset : BitVec 16) :
    translateVa (branchTarget a offset) = translateVa (branchTarget b offset) :=
  translateVa_add_congr (translateVa_add_congr h _) _

/-- A jump from two aliases leads to aliases: they share bit 28, the part of the region that is translated. -/
theorem translateVa_jumpTarget_congr {a b : Word} (h : translateVa a = translateVa b) (target : BitVec 26) :
    translateVa (jumpTarget a target) = translateVa (jumpTarget b target) := by
  rw [translateVa_eq_iff] at h ⊢
  rw [jumpTarget_toNat, jumpTarget_toNat]
  omega

namespace State.Alias

variable {s t : State}

theorem readReg (h : s.Alias t) (r : RegNum) : s.readReg r = t.readReg r := readReg_congr h.x r

theorem writeReg (h : s.Alias t) (r : RegNum) (v : Word) : (s.writeReg r v).Alias (t.writeReg r v) where
  x := writeReg_x_congr h.x r v
  mem := by rw [writeReg_mem, writeReg_mem, h.mem]
  cycle := by rw [writeReg_cycle, writeReg_cycle, h.cycle]
  live := by rw [writeReg_live, writeReg_live, h.live]
  paused := by rw [writeReg_paused, writeReg_paused, h.paused]
  pc := by rw [writeReg_pc, writeReg_pc, h.pc]

theorem writePc (h : s.Alias t) {p q : Word} (hpq : translateVa p = translateVa q) :
    (s.writePc p).Alias (t.writePc q) := ⟨h.x, h.mem, h.cycle, h.live, h.paused, hpq⟩

theorem advancePc (h : s.Alias t) : s.advancePc.Alias t.advancePc := h.writePc (translateVa_add_congr h.pc 4#32)

theorem countCycle (h : s.Alias t) : s.countCycle.Alias t.countCycle :=
  ⟨h.x, h.mem, congrArg (· + 1) h.cycle, h.live, h.paused, h.pc⟩

/-- Aliases are outside the image together, and recover to one address (R72). -/
theorem recoverPc (h : s.Alias t) : s.recoverPc.Alias t.recoverPc := by
  rw [recoverPc_eq_ite, recoverPc_eq_ite]
  refine h.writePc ?_
  rw [h.pc]
  split
  · exact h.pc
  · rfl

/-- Aliases fetch the same word (R74). -/
theorem fetchWord (h : s.Alias t) : s.fetchWord = t.fetchWord := by
  rw [State.fetchWord, State.fetchWord, fetchAddr, fetchAddr, h.mem, h.pc]

/-- Dispatch of one instruction keeps aliases aliases. -/
theorem exec (h : s.Alias t) (i : Instr) : ∃ s' t', exec i s = .next s' ∧ exec i t = .next t' ∧ s'.Alias t' := by
  cases i with
  | add rs rt rd sh =>
    refine ⟨_, _, exec_add rs rt rd sh s, exec_add rs rt rd sh t, ?_⟩
    rw [h.readReg, h.readReg]
    exact h.writeReg rd _
  | addi rs rt imm =>
    refine ⟨_, _, exec_addi rs rt imm s, exec_addi rs rt imm t, ?_⟩
    rw [h.readReg]
    exact h.writeReg rt _
  | lui rs rt imm => exact ⟨_, _, exec_lui rs rt imm s, exec_lui rs rt imm t, h.writeReg rt _⟩
  | bne rs rt offset =>
    refine ⟨_, _, exec_bne rs rt offset s, exec_bne rs rt offset t, ?_⟩
    rw [h.readReg, h.readReg]
    split
    · exact h.writePc (translateVa_branchTarget_congr h.pc offset)
    · exact h
  | j target => exact ⟨_, _, exec_j target s, exec_j target t, h.writePc (translateVa_jumpTarget_congr h.pc target)⟩
  | sllNop | lw | sw | unrecFunct | unrecOpcode => exact ⟨s, t, rfl, rfl, h⟩

/-- A step keeps aliases aliases. -/
theorem step (h : s.Alias t) : ∃ s' t', step s = .next s' ∧ step t = .next t' ∧ s'.Alias t' := by
  have hboth : s.running = t.running := running_congr h.live h.paused
  cases hrun : s.running with
  | false => exact ⟨s, t, step_gated hrun, step_gated (hboth ▸ hrun), h⟩
  | true =>
    obtain ⟨s', t', hs, ht, h'⟩ := h.recoverPc.advancePc.exec s.fetchedInstr
    refine ⟨s'.countCycle, t'.countCycle, ?_, ?_, h'.countCycle⟩
    · rw [step_running hrun, dispatchState, hs, mapNext]
    · have hinstr : t.fetchedInstr = s.fetchedInstr := by
        rw [fetchedInstr, fetchedInstr, h.recoverPc.fetchWord]
      rw [step_running (hboth ▸ hrun), hinstr, dispatchState, ht, mapNext]

end State.Alias

/-- Settles O47: being aliases is handed on by every step of both engines. -/
theorem aliasedPcsRunAlike : Obligations.AliasedPcsRunAlike := fun _ _ h n =>
  stepMany_simulation (fun _ _ => State.Alias.step) h n

/-! ### Idling through zero memory (R145) -/

section Idling

variable {s : State} (hrun : s.live = true ∧ s.paused = false)
  (hzero : ∀ a, 0x400 ≤ a → a < 0x800000 → s.mem.read a = 0x00#8)

/-- The engine `k` NOPs past the reset vector. -/
def State.idled (s : State) (k : Nat) : State :=
  { s with pc := 0x80000400#32 + BitVec.ofNat 32 (4 * k), cycle := s.cycle + k }

include hrun hzero

/-- Where a pc names zero memory, the step is the NOP's. -/
theorem step_zeroWord {pc : Word} {c p : Nat} (haddr : (translateVa pc).toNat = p) (hlow : 0x400 ≤ p)
    (hin : p + 4 ≤ 0x800000) :
    step { s with pc := pc, cycle := c } = .next { s with pc := pc + 4#32, cycle := c + 1 } := by
  have hword : (s.mem.read p ++ s.mem.read (p + 1) ++ s.mem.read (p + 2) ++ s.mem.read (p + 3) : Word) = 0#32 := by
    rw [hzero p hlow (by omega), hzero (p + 1) (by omega) (by omega), hzero (p + 2) (by omega) (by omega),
      hzero (p + 3) (by omega) (by omega)]
    decide
  have hfetch : State.Fetches { s with pc := pc, cycle := c } 0#32 :=
    State.fetches_of_addr hrun haddr hin hword
  exact hfetch.step_eq_nopStep (by rw [decode_of_sllNopMask (by decide), exec_sllNop])

/-- Below the end of the image an idling engine takes one NOP more. -/
theorem step_idled {k : Nat} (hk : k < 2096896) : step (s.idled k) = .next (s.idled (k + 1)) := by
  have haddr : (translateVa (0x80000400#32 + BitVec.ofNat 32 (4 * k))).toNat = 0x400 + 4 * k := by
    rw [translateVa_toNat, BitVec.toNat_add, BitVec.toNat_ofNat, BitVec.toNat_ofNat]
    omega
  have hpc : 0x80000400#32 + BitVec.ofNat 32 (4 * k) + 4#32 = 0x80000400#32 + BitVec.ofNat 32 (4 * (k + 1)) := by
    rw [BitVec.add_assoc, Nat.mul_succ, BitVec.ofNat_add]
  rw [State.idled, step_zeroWord hrun hzero haddr (by omega) (by omega), hpc]
  rfl

/-- The walk from the reset vector to the end of the image. -/
theorem stepMany_idled (hpc : s.pc = 0x80000400#32) {k : Nat} (hk : k ≤ 2096896) :
    stepMany k s = .next (s.idled k) := by
  induction k with
  | zero =>
    have hstart : s.idled 0 = s := by
      rw [State.idled, Nat.mul_zero, BitVec.add_zero, ← hpc, Nat.add_zero]
    rw [stepMany, hstart]
  | succ k ih => exact stepMany_succ_of (ih (by omega)) (step_idled hrun hzero (by omega))

/-- At the end of the image the engine recovers and takes the NOP at the reset vector. -/
theorem step_idled_end : step (s.idled 2096896) = .next { s with pc := 0x80000404#32, cycle := s.cycle + 2096897 } := by
  have hout : ¬(translateVa (s.idled 2096896).pc).toNat < 0x800000 := by
    rw [translateVa_toNat, State.idled, BitVec.toNat_add, BitVec.toNat_ofNat, BitVec.toNat_ofNat]
    omega
  rw [step_recoverPc ((s.idled 2096896).running_iff.mpr hrun), State.recoverPc_eq_ite, if_neg hout]
  exact step_zeroWord hrun hzero translateVa_resetVector (by omega) (by omega)

end Idling

/-- Settles O49: the walk through the NOPs, then the recovery. -/
theorem zeroMemoryIdlesRoundTheResetVector : Obligations.ZeroMemoryIdlesRoundTheResetVector := by
  intro s hlive hpaused hpc hzero
  have hrun : s.live = true ∧ s.paused = false := ⟨hlive, hpaused⟩
  have hwalk (k : Nat) (hk : k ≤ 2096896) := stepMany_idled hrun hzero hpc hk
  exact ⟨hwalk, stepMany_succ_of (hwalk 2096896 (Nat.le_refl _)) (step_idled_end hrun hzero)⟩

end Sys2Proof.Machine
end
